-- ==== Sys2Proof/Word.lean ====
section
/-! DEFINITION. The word types of the BuzzBoard acquisition pipeline block (00_scope R9): u8, u16, u32 and the
12-bit conversion code. -/

namespace Sys2Proof

/-- A u32: a bus word, a register, or the bits of a binary32 value (20_memory R48). -/
abbrev Word := BitVec 32

/-- A u16: one capture cell (10_state R30), or the bits of an int16 sample (00_scope R9). -/
abbrev Half := BitVec 16

/-- A u8: a ring byte, a compressor code, a ring index (00_scope R9). -/
abbrev Byte := BitVec 8

/-- One conversion code, `ADC_BITS = 12` bits (00_scope R7; 41_capture R106). -/
abbrev Code := BitVec 12

end Sys2Proof
end

