-- ==== Sys2Proof/Syntax.lean ====
section
/-! DEFINITION. The commands of the block: one constructor per row of spec/opcode_table.json (30_encoding R64), each with the
operand sub-field of `IMM` that R62 gives it and, first, the rest of `IMM`, which is reserved (R63; log 10). -/

namespace Sys2Proof

/-- The 14 commands (30_encoding R64). `reserved` is the part of `IMM` that R62 lists for no operand. -/
inductive Instr where
  /-- 0x00, 44_pipeline_control R145. -/
  | nop (reserved : BitVec 24)
  /-- 0x10, 41_capture R100; `ch = IMM[7:0]`. -/
  | capConfig (reserved : BitVec 16) (ch : Byte)
  /-- 0x11, 41_capture R101. -/
  | capStart (reserved : BitVec 24)
  /-- 0x12, 41_capture R102. -/
  | capStop (reserved : BitVec 24)
  /-- 0x13, 41_capture R104; `mask = IMM[1:0]`. -/
  | capClear (reserved : BitVec 22) (mask : BitVec 2)
  /-- 0x20, 40_filter_downsampler R82; `r = IMM[7:0]`. -/
  | dsConfig (reserved : BitVec 16) (r : Byte)
  /-- 0x21, 40_filter_downsampler R83. -/
  | dsUpdate (reserved : BitVec 24)
  /-- 0x22, 40_filter_downsampler R84. -/
  | dsGet (reserved : BitVec 24)
  /-- 0x30, 42_compressor R124; `s16 = IMM[15:0]`. -/
  | cmpEncode (reserved : BitVec 8) (s16 : Half)
  /-- 0x31, 42_compressor R125. -/
  | cmpEncodeF (reserved : BitVec 24)
  /-- 0x40, 43_ring R136. -/
  | ringReset (reserved : BitVec 24)
  /-- 0x41, 43_ring R137; `byte = IMM[7:0]`. -/
  | ringAppend (reserved : BitVec 16) (byte : Byte)
  /-- 0x42, 43_ring R138. -/
  | ringDrain (reserved : BitVec 24)
  /-- 0x50, 44_pipeline_control R147; `h = IMM[0]`. -/
  | pipeHalf (reserved : BitVec 23) (h : BitVec 1)
deriving DecidableEq, Repr

end Sys2Proof
end

