-- ==== Sys2Proof/Decode.lean ====
section
/-! DEFINITION. Decoding of a `CMD` word (30_encoding R60, R64, R65, R66) and, after it, the encoder written from the same
tables. Decoding looks at the whole `OPC` byte and nothing else; a reserved bit of `IMM` set is no decoding failure but
the command's own BAD_OPERAND (R63; log 10). -/

namespace Sys2Proof

/-- Why a `CMD` word names no command. -/
inductive DecodeError where
  /-- `OPC` is one of the 242 reserved values (30_encoding R65): status BAD_OPCODE. -/
  | reservedOpcode (opc : Byte)
deriving DecidableEq, Repr

/-- `OPC = w[31:24]` (30_encoding R60). -/
def opcOf (w : Word) : Byte := w.extractLsb' 24 8

/-- The command of a word written to `CMD` (30_encoding R60, R62, R64), or the reserved opcode it carries (R65). -/
def decode (w : Word) : Except DecodeError Instr :=
  match (opcOf w).toNat with
  | 0x00 => .ok (.nop (w.extractLsb' 0 24))
  | 0x10 => .ok (.capConfig (w.extractLsb' 8 16) (w.extractLsb' 0 8))
  | 0x11 => .ok (.capStart (w.extractLsb' 0 24))
  | 0x12 => .ok (.capStop (w.extractLsb' 0 24))
  | 0x13 => .ok (.capClear (w.extractLsb' 2 22) (w.extractLsb' 0 2))
  | 0x20 => .ok (.dsConfig (w.extractLsb' 8 16) (w.extractLsb' 0 8))
  | 0x21 => .ok (.dsUpdate (w.extractLsb' 0 24))
  | 0x22 => .ok (.dsGet (w.extractLsb' 0 24))
  | 0x30 => .ok (.cmpEncode (w.extractLsb' 16 8) (w.extractLsb' 0 16))
  | 0x31 => .ok (.cmpEncodeF (w.extractLsb' 0 24))
  | 0x40 => .ok (.ringReset (w.extractLsb' 0 24))
  | 0x41 => .ok (.ringAppend (w.extractLsb' 8 16) (w.extractLsb' 0 8))
  | 0x42 => .ok (.ringDrain (w.extractLsb' 0 24))
  | 0x50 => .ok (.pipeHalf (w.extractLsb' 1 23) (w.extractLsb' 0 1))
  | _ => .error (.reservedOpcode (opcOf w))

/-- The `OPC` byte of a command (30_encoding R64). -/
def Instr.opcode : Instr → Byte
  | .nop _ => 0x00#8
  | .capConfig _ _ => 0x10#8
  | .capStart _ => 0x11#8
  | .capStop _ => 0x12#8
  | .capClear _ _ => 0x13#8
  | .dsConfig _ _ => 0x20#8
  | .dsUpdate _ => 0x21#8
  | .dsGet _ => 0x22#8
  | .cmpEncode _ _ => 0x30#8
  | .cmpEncodeF _ => 0x31#8
  | .ringReset _ => 0x40#8
  | .ringAppend _ _ => 0x41#8
  | .ringDrain _ => 0x42#8
  | .pipeHalf _ _ => 0x50#8

/-- The `IMM` field of a command: its reserved bits above its operand (30_encoding R62). -/
def Instr.imm : Instr → BitVec 24
  | .nop reserved => reserved
  | .capConfig reserved ch => reserved ++ ch
  | .capStart reserved => reserved
  | .capStop reserved => reserved
  | .capClear reserved mask => reserved ++ mask
  | .dsConfig reserved r => reserved ++ r
  | .dsUpdate reserved => reserved
  | .dsGet reserved => reserved
  | .cmpEncode reserved s16 => reserved ++ s16
  | .cmpEncodeF reserved => reserved
  | .ringReset reserved => reserved
  | .ringAppend reserved byte => reserved ++ byte
  | .ringDrain reserved => reserved
  | .pipeHalf reserved h => reserved ++ h

/-- The word of a command: `OPC || IMM` (30_encoding R60). -/
def encode (i : Instr) : Word := i.opcode ++ i.imm

/-- The command the decoder reads from a word numbered as spec/opcode_table.json numbers it: one 32-bit `CMD` word, the
bits at and above `nbits` zero. -/
def decodeTableWord (nbits w : Nat) : Option Instr :=
  if w < 2 ^ 32 then
    match decode (BitVec.ofNat 32 (w % 2 ^ nbits)) with
    | .ok i => some i
    | .error _ => none
  else none

end Sys2Proof
end

