-- ==== Sys2Proof/Config.lean ====
section
/-! DEFINITION. What an implementation fixes (00_scope R7, R8, R12) and the free values (10_state R39, 41_capture R106).
The parameters the spec fixes are constants here. The OPEN ones are a record, `Params`, which every state carries (log 8),
so that each meaning takes them as arguments; the reset state takes the opaque legal value `Config.build`. -/

namespace Sys2Proof

/-- `ADC_BITS`, width of one conversion code (00_scope R7). -/
def Config.adcBits : Nat := 12

/-- `CAP_LEN_MAX`, capacity of the capture memory in 16-bit cells (00_scope R7). -/
def Config.capLenMax : Nat := 2048

/-- `NSEC_MAX`, most sections any coefficient set has (00_scope R7). -/
def Config.nsecMax : Nat := 16

/-- `Q_SCALE`, float-to-16-bit scale (00_scope R7). -/
def Config.qScale : Nat := 32767

/-- `CMP_BIAS`, compressor bias (00_scope R7). -/
def Config.cmpBias : Nat := 132

/-- `CMP_CLIP`, compressor magnitude clip (00_scope R7). -/
def Config.cmpClip : Nat := 32635

/-- `QNAN`, the one NaN the filter produces (00_scope R7; 40_filter_downsampler R77). -/
def Config.qnan : Word := 0x7FC00000#32

/-- One second-order section `(b0, b1, b2, a1, a2)`, each the bits of a binary32 value; a0 is 1 and not stored
(00_scope R8, R12). -/
structure Section where
  b0 : Word
  b1 : Word
  b2 : Word
  a1 : Word
  a2 : Word
deriving DecidableEq, Repr

/-- `COEF(R)`: the gain `G_R` and the sections of one ratio; `NSEC(R)` is their number (00_scope R12). -/
structure CoefSet where
  gain     : Word
  sections : List Section
deriving DecidableEq, Repr

/-- The OPEN parameters of 00_scope R7, fixed when the block is built. -/
structure Params where
  /-- `BASE`, bus address of register offset 0. -/
  base       : Nat
  /-- `CHANNEL_MAX`, largest legal input channel identifier. -/
  channelMax : Nat
  /-- `RATE_MAX`, largest legal tick rate in Hz. -/
  rateMax    : Nat
  /-- `RING_N`, number of ring slots. -/
  ringN      : Nat
  /-- `SLOT_SIZE`, bytes per slot. -/
  slotSize   : Nat
  coef5      : CoefSet
  coef10     : CoefSet
  coef20     : CoefSet
  coef50     : CoefSet
  coef100    : CoefSet
deriving DecidableEq, Repr

/-- `NSEC(R)` lies in `1 .. NSEC_MAX` (00_scope R7). -/
abbrev CoefSet.Wf (c : CoefSet) : Prop := 1 ≤ c.sections.length ∧ c.sections.length ≤ Config.nsecMax

/-- The ranges 00_scope R7 gives the OPEN parameters, with its constraint on the ring window. -/
abbrev Params.Wf (p : Params) : Prop :=
  p.channelMax ≤ 255 ∧ (1 ≤ p.rateMax ∧ p.rateMax ≤ 4294967295) ∧ (2 ≤ p.ringN ∧ p.ringN ≤ 255) ∧
    (p.slotSize % 4 = 0 ∧ 4 ≤ p.slotSize ∧ p.slotSize ≤ 8192) ∧ p.ringN * p.slotSize ≤ 8192 ∧
    (p.coef5.Wf ∧ p.coef10.Wf ∧ p.coef20.Wf ∧ p.coef50.Wf ∧ p.coef100.Wf)

/-- `COEF_EX`, the spec's example set of 95_test_vectors part 2, the same for every ratio. -/
def Config.coefEx : CoefSet :=
  ⟨0x3F000000#32, [⟨0x3E800000#32, 0x3F000000#32, 0x3E800000#32, 0xBF000000#32, 0x00000000#32⟩]⟩

/-- The example parameters of 95_test_vectors part 2 (BASE 0). They are used by the tests, and they show that a legal
parameter value exists; no definition of the machine reads them. -/
def Config.exampleParams : Params :=
  { base := 0, channelMax := 7, rateMax := 100000, ringN := 3, slotSize := 4, coef5 := Config.coefEx,
    coef10 := Config.coefEx, coef20 := Config.coefEx, coef50 := Config.coefEx, coef100 := Config.coefEx }

/-- Build parameters together with the proof that 00_scope R7 allows them. The defaults only show that the type is
inhabited. -/
structure Config.LegalParams where
  val   : Params := Config.exampleParams
  legal : val.Wf := by decide
deriving Inhabited

/-- The build parameters of this block: some legal value, of which nothing else is known (00_scope R7, "the model must
not assume one"; log 8). -/
opaque Config.build : Config.LegalParams

/-- FREE VALUE. What a byte of storage that nothing has written reads as, at draw number `n` (10_state R39; log 6). -/
opaque Config.freeByte : Nat → Byte

/-- FREE VALUE. The conversion code of a channel at draw number `n`, for a tick the schedule does not list
(41_capture R106; log 3, 5). -/
opaque Config.freeCode : Byte → Nat → Code

end Sys2Proof
end

