-- ==== Sys2Proof/Machine/State.lean ====
section
/-! DEFINITION. The state of the block as plain data (10_state R22), the events of its total order (20_memory R55), the reasons
a step can stop, and the state after reset (70_reset_and_hazards R175). -/

namespace Sys2Proof.Machine

open Sys2Proof

/-- One storage array as (block offset, byte) pairs: addresses strictly rising, and only bytes that something has written
(an unlisted address is one nothing has written since reset, 10_state R39). -/
abbrev Memory := List Host.Cell

/-- The status codes of 60_exceptions R156. -/
inductive Status where
  | ok
  | badOpcode
  | badOperand
  | badState
deriving DecidableEq, Repr

/-- The two delay registers of one filter section, the bits of two binary32 values (10_state R32). -/
structure Delay where
  z0 : Word
  z1 : Word
deriving DecidableEq, Repr

/-- One atomic event of the block's total order (20_memory R55), besides the command a write at `CMD` executes. -/
inductive Event where
  /-- A bus read of `size` bytes at byte offset `offset` from `BASE` (00_scope R10). -/
  | read (offset size : Nat)
  /-- A bus write of `size` bytes at byte offset `offset` from `BASE` (00_scope R10). -/
  | write (offset size : Nat) (data : Word)
  /-- An engine tick whose two draws are `a` and `b` (41_capture R105; 30_encoding R68). -/
  | tick (a b : Code)
  /-- The platform's reset input (70_reset_and_hazards R175). -/
  | reset
deriving DecidableEq, Repr

/-- Every state element of 10_state R22 under its own name, and four fields of the model's own: `params`, `schedule`,
`readData` and `draws` (log 1, 6, 7, 8). -/
structure State where
  /-- MODEL. The build parameters (00_scope R7); nothing changes them (43_ring R130, 10_state R33). -/
  params     : Params
  /-- `ARG` (10_state R20, R23). -/
  arg        : Word
  /-- `RESULT` (10_state R20, R24). -/
  result     : Word
  /-- `LAST_STATUS` (10_state R25). -/
  lastStatus : Status
  /-- `CAP_CFG` (10_state R28). -/
  capCfg     : Bool
  /-- `CHANNEL` (10_state R28). -/
  channel    : Byte
  /-- `LEN` (10_state R28). -/
  len        : Word
  /-- `RATE` (10_state R28). -/
  rate       : Word
  /-- `RUN` (10_state R27). -/
  run        : Bool
  /-- `WIDX` (10_state R29). -/
  widx       : Word
  /-- `HT` (10_state R26). -/
  ht         : Bool
  /-- `TC` (10_state R26). -/
  tc         : Bool
  /-- `CAPMEM` (10_state R30): cell `i` is the two bytes at block offset `0x1000 + 2*i`, the low byte first. -/
  capMem     : Memory
  /-- `HALF_VALID[0]` (10_state R38). -/
  halfValid0 : Bool
  /-- `HALF_VALID[1]` (10_state R38). -/
  halfValid1 : Bool
  /-- `DS_CFG` (10_state R31). -/
  dsCfg      : Bool
  /-- `RATIO` (10_state R31). -/
  ratio      : Byte
  /-- `COUNT` (10_state R31). -/
  count      : Byte
  /-- `READY` (10_state R31). -/
  ready      : Bool
  /-- `SAMPLE`, the bits of a binary32 value (10_state R31). -/
  sample     : Word
  /-- `Z0[s]`, `Z1[s]` for `s < NSEC_MAX`, section 0 first (10_state R32). -/
  delay      : List Delay
  /-- `FILL` (10_state R34). -/
  fill       : Byte
  /-- `DRAIN` (10_state R34). -/
  drain      : Byte
  /-- `POS` (10_state R34). -/
  pos        : Half
  /-- `OVF_COUNT` (10_state R34). -/
  ovfCount   : Word
  /-- `OVF_LATCH` (10_state R34). -/
  ovfLatch   : Bool
  /-- `RINGMEM` (10_state R35): byte `b` of slot `s` is at block offset `0x2000 + s*SLOT_SIZE + b`. -/
  ringMem    : Memory
  /-- MODEL. The events still to come, first one first (20_memory R55; log 1). DESIGN CHOICE: the list is finite, so a run holds
  only finitely many bus accesses and resets and ends in unscheduled ticks or idleness (log 20). -/
  schedule   : List Event
  /-- MODEL. The word the last completed bus read returned to the controller (log 7). -/
  readData   : Word
  /-- MODEL. How many free values have been drawn (10_state R39; log 6). -/
  draws      : Nat
deriving DecidableEq, Repr

/-- Why the block stops: the two faults of 60_exceptions R160, and no other. -/
inductive Fault where
  /-- `BUS_ERROR`: a bus access inside the window that is not 32 bits wide or not aligned (20_memory R49, R50). Raised by
  busRead and busWrite. The spec changes no state and lets the controller go on; stopping is safe (log 11). -/
  | busError
  /-- `CAPTURE_HAZARD`: PIPE_HALF of a half with `HALF_VALID = 0` (70_reset_and_hazards R181). Raised by execPipeHalf. The
  spec's own model check; stopping is safe, and what the check cannot see is unsafe (log 12). -/
  | captureHazard
deriving DecidableEq, Repr

/-- What the block gives no meaning to. -/
inductive Refusal where
  /-- A command without a meaning in this model, by its mnemonic. Raised by no arm of exec. Safe. -/
  | notModelled (mnemonic : String)
  /-- A bus access at an offset the block does not decode; what the platform does with it is outside the spec
  (20_memory R41). Raised by busRead and busWrite. Safe (log 11). -/
  | outsideBlock (offset : Nat)
deriving DecidableEq, Repr

/-- The reset values of 10_state R22 (70_reset_and_hazards R175), for build parameters `p`; `CAPMEM` and `RINGMEM` unwritten.
The last three fields are the model's own (log 1, 6, 7). -/
def State.resetWith (p : Params) : State :=
  { params := p, arg := 0, result := 0, lastStatus := .ok,
    capCfg := false, channel := 0, len := 0, rate := 0, run := false, widx := 0, ht := false, tc := false,
    capMem := [], halfValid0 := false, halfValid1 := false,
    dsCfg := false, ratio := 0, count := 0, ready := false, sample := 0,
    delay := List.replicate Config.nsecMax ⟨0, 0⟩,
    fill := 0, drain := 0, pos := 0, ovfCount := 0, ovfLatch := false, ringMem := [],
    schedule := [], readData := 0, draws := 0 }

/-- The block right after reset (70_reset_and_hazards R175), with the build parameters left open (00_scope R7; log 8). -/
def State.reset : State := State.resetWith Config.build.val

end Sys2Proof.Machine
end

