-- ==== Sys2Proof/Machine/Ops.lean ====
section
/-! DEFINITION. The named operations over storage and registers: reads and writes of the storage arrays (10_state R30, R35, R39;
20_memory R46, R47, R48), how a command ends (60_exceptions R159; the block takes no exception, R155), and the coefficient
set in use (10_state R33). -/

namespace Sys2Proof.Machine

open Sys2Proof

/-! ## Storage -/

/-- The canonical form: addresses strictly rising. An unlisted address reads as "nothing written", which no entry equals. -/
abbrev Memory.wf (m : Memory) : Prop := m.Pairwise (fun x y => x.1 < y.1)

/-- The byte at an address, if anything has written it. -/
def Memory.read : Memory → Nat → Option Byte
  | [], _ => none
  | (b, v) :: m, a => if a = b then some v else Memory.read m a

/-- Store one byte, keeping the addresses strictly rising. -/
def Memory.write : Memory → Nat → Byte → Memory
  | [], a, v => [(a, v)]
  | (b, w) :: m, a, v =>
    if a < b then (a, v) :: (b, w) :: m
    else if a = b then (a, v) :: m
    else (b, w) :: Memory.write m a v

/-- The byte a read of an address returns: what was written, or draw number `n` (10_state R39; log 6). -/
def Memory.fetch (m : Memory) (a n : Nat) : Byte := (m.read a).getD (Config.freeByte n)

/-- The little-endian word at an address, its bytes drawn as numbers `n .. n+3` where nothing wrote them (20_memory R48;
10_state R39). -/
def Memory.fetchWord (m : Memory) (a n : Nat) : Word :=
  m.fetch (a + 3) (n + 3) ++ m.fetch (a + 2) (n + 2) ++ m.fetch (a + 1) (n + 1) ++ m.fetch a n

/-- Store a 16-bit cell, low byte first (20_memory R48). -/
def Memory.writeHalf (m : Memory) (a : Nat) (v : Half) : Memory :=
  (m.write a (v.extractLsb' 0 8)).write (a + 1) (v.extractLsb' 8 8)

/-- Block offset of the first byte of `CAPMEM[i]` (20_memory R46). -/
def cellAddr (i : Nat) : Nat := 0x1000 + 2 * i

/-- Block offset of `RINGMEM[s][b]` (20_memory R47). -/
def slotAddr (p : Params) (s b : Nat) : Nat := 0x2000 + s * p.slotSize + b

/-! ## How a command ends -/

/-- `raise Status(code)`: `LAST_STATUS <- code`, and nothing else changes (60_exceptions R159). -/
def State.raise (code : Status) (s : State) : State := { s with lastStatus := code }

/-- A command that completes sets `LAST_STATUS <- OK` after its effects (60_exceptions R159). -/
def State.complete (s : State) : State := { s with lastStatus := .ok }

/-- `RESULT <- v` and completion (10_state R24). -/
def State.completeWith (v : Word) (s : State) : State := { s with result := v, lastStatus := .ok }

/-! ## Parameters -/

/-- `COEF(R)` (00_scope R12, 10_state R33). The last arm is `COEF(100)`; it also answers a ratio outside RATIOS, which
cannot become active (40_filter_downsampler R87; log 9). -/
def coefOf (p : Params) (r : Byte) : CoefSet :=
  if r = 5 then p.coef5
  else if r = 10 then p.coef10
  else if r = 20 then p.coef20
  else if r = 50 then p.coef50
  else p.coef100

/-- `COEF(RATIO)`, the set in use (10_state R33). -/
def State.coef (s : State) : CoefSet := coefOf s.params s.ratio

/-- The byte offset of a platform bus address from `BASE`, for an address at or above it (20_memory R40; log 8). -/
def offsetOf (p : Params) (address : Nat) : Option Nat :=
  if p.base ≤ address then some (address - p.base) else none

end Sys2Proof.Machine
end

