-- ==== Sys2Proof/Machine/Flags.lean ====
section
/-! DEFINITION. The status codes and every flag computation: the STATUS word (20_memory R42), RING_PENDING (43_ring R131), the
overflow event and its latch (43_ring R134), and `HALF_VALID` of a half (10_state R38). -/

namespace Sys2Proof.Machine

open Sys2Proof

/-- The code of a status (60_exceptions R156). -/
def Status.code : Status → Byte
  | .ok => 0x00#8
  | .badOpcode => 0x01#8
  | .badOperand => 0x02#8
  | .badState => 0x03#8

/-- RING_PENDING: 1 if `FILL != DRAIN` (20_memory R42). -/
def State.ringPending (s : State) : Bool := s.fill != s.drain

/-- The number of pending slots, `(FILL - DRAIN) mod RING_N` (43_ring R131). -/
def State.pendingSlots (s : State) : Nat := (s.fill.toNat + s.params.ringN - s.drain.toNat) % s.params.ringN

/-- `HALF_VALID[h]` (10_state R38). -/
def State.halfValid (s : State) (h : Nat) : Bool := if h = 0 then s.halfValid0 else s.halfValid1

/-- The STATUS word, bit 31 first (20_memory R42). -/
def statusWord (s : State) : Word :=
  0#16 ++ s.lastStatus.code ++ BitVec.ofBool s.ovfLatch ++ BitVec.ofBool s.ringPending ++ BitVec.ofBool s.ready ++
    BitVec.ofBool s.dsCfg ++ BitVec.ofBool s.capCfg ++ BitVec.ofBool s.run ++ BitVec.ofBool s.tc ++ BitVec.ofBool s.ht

/-- `next` of AdvanceCore: the slot after `i`, modulo `RING_N` (43_ring R134, R138). -/
def nextSlot (p : Params) (i : Byte) : Byte := BitVec.ofNat 8 ((i.toNat + 1) % p.ringN)

/-- `ev` of AdvanceCore: the advance of `FILL` lands on `DRAIN` (43_ring R134). -/
def overflowEvent (s : State) : Bool := nextSlot s.params s.fill == s.drain

/-- One more overflow, saturating at `2^32 - 1` (43_ring R134). -/
def saturatingSucc (c : Word) : Word := BitVec.ofNat 32 (min (c.toNat + 1) 4294967295)

end Sys2Proof.Machine
end

