-- ==== Sys2Proof/Machine/Operands.lean ====
section
/-! DEFINITION. Every operand form of 30_encoding R62 that is more than a field of the command word, and the range checks the
commands make on operand values (60_exceptions R157). -/

namespace Sys2Proof.Machine

open Sys2Proof

/-- `ch` (CAP_CONFIG): `IMM[7:0]` zero-extended, legal up to `CHANNEL_MAX` (30_encoding R62; 41_capture R100). -/
def channelLegal (p : Params) (ch : Byte) : Bool := decide (ch.toNat ≤ p.channelMax)

/-- `len` (CAP_CONFIG): `ARG` as a u32 (30_encoding R62). -/
def lenOperand (s : State) : Word := s.arg

/-- A length is legal when it is a multiple of 4 in `4 .. CAP_LEN_MAX` (41_capture R100). -/
def lengthLegal (len : Word) : Bool :=
  decide (4 ≤ len.toNat ∧ len.toNat ≤ Config.capLenMax ∧ len.toNat % 4 = 0)

/-- `rate` (CAP_START): `ARG` as a u32, in Hz (30_encoding R62). -/
def rateOperand (s : State) : Word := s.arg

/-- A rate is legal in `1 .. RATE_MAX` (41_capture R101). -/
def rateLegal (p : Params) (rate : Word) : Bool := decide (rate.toNat ≠ 0 ∧ rate.toNat ≤ p.rateMax)

/-- `r` (DS_CONFIG) is legal when it is a member of RATIOS (40_filter_downsampler R82). -/
def ratioLegal (r : Byte) : Bool := r == 5 || r == 10 || r == 20 || r == 50 || r == 100

/-- `x` (DS_UPDATE) and `y` (CMP_ENCODE_F): `F32(ARG)`, the bits themselves (30_encoding R62; 20_memory R48). -/
def floatOperand (s : State) : Word := s.arg

/-- `mask` (CAP_CLEAR): bit 0 names HT (30_encoding R62). -/
def maskNamesHt (mask : BitVec 2) : Bool := mask.getLsbD 0

/-- `mask` (CAP_CLEAR): bit 1 names TC (30_encoding R62). -/
def maskNamesTc (mask : BitVec 2) : Bool := mask.getLsbD 1

/-- `h` (PIPE_HALF): 0 selects half 0, 1 selects half 1 (30_encoding R62). -/
def halfOperand (h : BitVec 1) : Nat := h.toNat

end Sys2Proof.Machine
end

