-- ==== Sys2Proof/Machine/Capture.lean ====
section
/-! DEFINITION. The capture unit (41_capture): its four commands and the engine tick. -/

namespace Sys2Proof.Machine

open Sys2Proof

/-- CAP_CONFIG (R100): construct the capture unit on channel `ch` with length `ARG`. -/
def execCapConfig (reserved : BitVec 16) (ch : Byte) (s : State) : Host.Outcome State Fault Refusal :=
  .next (
    if reserved ≠ 0 then s.raise .badOperand
    else if !channelLegal s.params ch then s.raise .badOperand
    else if !lengthLegal (lenOperand s) then s.raise .badOperand
    else if s.run then s.raise .badState
    else State.complete { s with
      channel := ch, len := lenOperand s, capCfg := true, widx := 0, ht := false, tc := false,
      halfValid0 := false, halfValid1 := false })

/-- CAP_START (R101): enable engine ticks at rate `ARG`, from cell 0 with both flags clear. -/
def execCapStart (reserved : BitVec 24) (s : State) : Host.Outcome State Fault Refusal :=
  .next (
    if reserved ≠ 0 then s.raise .badOperand
    else if !rateLegal s.params (rateOperand s) then s.raise .badOperand
    else if !s.capCfg || s.run then s.raise .badState
    else State.complete { s with
      rate := rateOperand s, widx := 0, ht := false, tc := false,
      halfValid0 := false, halfValid1 := false, run := true })

/-- CAP_STOP (R102, R103): no tick occurs after this command; everything delivered is retained. -/
def execCapStop (reserved : BitVec 24) (s : State) : Host.Outcome State Fault Refusal :=
  .next (if reserved ≠ 0 then s.raise .badOperand else State.complete { s with run := false })

/-- CAP_CLEAR (R104): clear the flags `mask` names and no others. -/
def execCapClear (reserved : BitVec 22) (mask : BitVec 2) (s : State) : Host.Outcome State Fault Refusal :=
  .next (
    if reserved ≠ 0 then s.raise .badOperand
    else State.complete { s with
      ht := if maskNamesHt mask then false else s.ht
      tc := if maskNamesTc mask then false else s.tc })

/-- The cells a tick writes: codes `a` and `b`, zero-extended, at cells `i` and `i+1` (R105). -/
def storePair (m : Memory) (i : Nat) (a b : Code) : Memory :=
  (m.writeHalf (cellAddr i) (a.setWidth 16)).writeHalf (cellAddr (i + 1)) (b.setWidth 16)

/-- The engine tick with draws `a` and `b` (R105), for a state with `RUN = 1`. -/
def tick (a b : Code) (s : State) : State :=
  let i := s.widx.toNat
  let length := s.len.toNat
  let first := decide (i < length / 2)
  let halfDone := decide (i + 2 = length / 2)
  let fullDone := decide (i + 2 = length)
  { s with
    capMem := storePair s.capMem i a b
    widx := if fullDone then 0 else BitVec.ofNat 32 (i + 2)
    ht := s.ht || halfDone
    tc := s.tc || fullDone
    halfValid0 := halfDone || (s.halfValid0 && !first)
    halfValid1 := fullDone || (s.halfValid1 && first) }

/-- A tick the schedule places here: it happens while `RUN = 1`, and not otherwise (R103, R105; log 4). -/
def scheduledTick (a b : Code) (s : State) : State := if s.run then tick a b s else s

/-- With no event scheduled, the engine takes the next tick by itself while `RUN = 1`, its codes two draws of the channel
(R106, R107; log 3); otherwise the block is idle (70_reset_and_hazards R175). -/
def idle (s : State) : State :=
  if s.run then
    tick (Config.freeCode s.channel s.draws) (Config.freeCode s.channel (s.draws + 1)) { s with draws := s.draws + 2 }
  else s

end Sys2Proof.Machine
end

