-- ==== Sys2Proof/Machine/Float.lean ====
section
/-! DEFINITION. IEEE 754 binary32 arithmetic on bit patterns (40_filter_downsampler R75, R76, R77).
Every finite binary32 value is an integer multiple of `2^-149`, so sums are exact integers in that unit and products are exact
integers in the unit `2^-298`; `roundPack` rounds such an exact value once. -/

namespace Sys2Proof.Machine

open Sys2Proof

/-- Bit 31, the sign (R75). -/
def f32Sign (x : Word) : Bool := x.getLsbD 31

/-- Bits 30:23, the biased exponent (R75). -/
def f32Exp (x : Word) : Nat := (x.extractLsb' 23 8).toNat

/-- Bits 22:0, the fraction (R75). -/
def f32Frac (x : Word) : Nat := (x.extractLsb' 0 23).toNat

/-- Exponent 255 with a fraction that is not 0 (R75). -/
def f32IsNaN (x : Word) : Bool := f32Exp x == 255 && f32Frac x != 0

/-- Exponent 255 with fraction 0 (R75). -/
def f32IsInf (x : Word) : Bool := f32Exp x == 255 && f32Frac x == 0

/-- The magnitude of a finite value as a multiple of `2^-149` (R75): subnormals and zeros have exponent field 0, a normal
number with exponent field `e` is `(2^23 + fraction) * 2^(e-1)` units. -/
def f32Units (x : Word) : Nat :=
  if f32Exp x = 0 then f32Frac x else (8388608 + f32Frac x) * 2 ^ (f32Exp x - 1)

/-- The signed value of a finite binary32 in units of `2^-149`; both zeros are 0. -/
def f32Int (x : Word) : Int := if f32Sign x then -(f32Units x : Int) else (f32Units x : Int)

/-- The sign bit in place. -/
def f32SignBit (sign : Bool) : Word := if sign then 0x80000000#32 else 0#32

/-- The infinity of a sign (R76). -/
def f32Inf (sign : Bool) : Word := f32SignBit sign ||| 0x7F800000#32

/-- The same value with the other sign. -/
def f32Neg (x : Word) : Word := x ^^^ 0x80000000#32

/-- `m / 2^k` rounded to an integer, to nearest with ties to even (R76). -/
def roundNearestEven (m k : Nat) : Nat :=
  let q := m / 2 ^ k
  let r := m % 2 ^ k
  if 2 ^ k < 2 * r ∨ (2 * r = 2 ^ k ∧ q % 2 = 1) then q + 1 else q

/-- How many low bits of `m` a binary32 result drops, where `m` counts units of `2^-(149+u)`: at least `u` of them (the least
subnormal is `2^-149`), and all but the 24 leading bits (R76). -/
def roundShift (m u : Nat) : Nat := max u (Nat.log2 m - 23)

/-- The binary32 nearest to `± m * 2^-(149+u)`, ties to even, overflowing to the infinity of the sign (R76). With `q` the
rounded significand and `e` the exponent above the least one, the encoding of the magnitude is `e * 2^23 + q`: the hidden
bit of a normal `q`, and a carry out of rounding, add themselves to the exponent field. -/
def roundPack (sign : Bool) (m u : Nat) : Word :=
  let shift := roundShift m u
  let magnitude := (shift - u) * 8388608 + roundNearestEven m shift
  if 0x7F800000 ≤ magnitude then f32Inf sign else f32SignBit sign ||| BitVec.ofNat 32 magnitude

/-- `add32` (R76, R77): one rounding of the exact sum; a NaN result is `QNAN`; an exact zero sum is -0.0 only for
`(-0.0) + (-0.0)`. -/
def add32 (a b : Word) : Word :=
  if f32IsNaN a || f32IsNaN b then Config.qnan
  else if f32IsInf a then
    (if f32IsInf b && (f32Sign a != f32Sign b) then Config.qnan else a)
  else if f32IsInf b then b
  else
    let sum := f32Int a + f32Int b
    if sum = 0 then f32SignBit (f32Sign a && f32Sign b) else roundPack (decide (sum < 0)) sum.natAbs 0

/-- `sub32` (R76, R77): `a - b` is `a + (-b)`. -/
def sub32 (a b : Word) : Word := add32 a (f32Neg b)

/-- `mul32` (R76, R77): one rounding of the exact product; the sign, also of a zero, is the exclusive-or of the operands';
`0 * inf` is `QNAN`. -/
def mul32 (a b : Word) : Word :=
  let sign := f32Sign a != f32Sign b
  if f32IsNaN a || f32IsNaN b then Config.qnan
  else if f32IsInf a || f32IsInf b then
    (if (!f32IsInf a && f32Units a == 0) || (!f32IsInf b && f32Units b == 0) then Config.qnan else f32Inf sign)
  else roundPack sign (f32Units a * f32Units b) 149

end Sys2Proof.Machine
end

