-- ==== Sys2Proof/Machine/Compressor.lean ====
section
/-! DEFINITION. The compressor (42_compressor): the encoder, its reference inverse, the conversion from binary32, and the two
commands. -/

namespace Sys2Proof.Machine

open Sys2Proof

/-- `mag` of `Encode` after the clip and the bias, from the sample as an integer: 132 .. 32767 (R121). -/
def biasedMagnitude (x : Int) : Nat := min x.natAbs Config.cmpClip + Config.cmpBias

/-- `E`, the position of the highest 1 bit of the biased magnitude, minus 7 (R121). -/
def codeExponent (x : Int) : Nat := Nat.log2 (biasedMagnitude x) - 7

/-- `M`, the four bits below the highest 1 bit (R121). -/
def codeMantissa (x : Int) : Nat := (biasedMagnitude x >>> (codeExponent x + 3)) % 16

/-- `Encode(x)` of an int16 (R121): sign, exponent, mantissa, from bit 7 down (R120). -/
def encodeSample (x : Half) : Byte :=
  BitVec.ofBool (decide (x.toInt < 0)) ++ BitVec.ofNat 3 (codeExponent x.toInt) ++ BitVec.ofNat 4 (codeMantissa x.toInt)

/-- `Decode(c)`, the reference inverse (R122). No command performs it. -/
def decodeCode (c : Byte) : Int :=
  let mag : Nat := ((((c.extractLsb' 0 4).toNat <<< 3) + Config.cmpBias) <<< (c.extractLsb' 4 3).toNat) - Config.cmpBias
  if c.getLsbD 7 then -(mag : Int) else (mag : Int)

/-- `Q16(y)` (R123): a NaN gives 0; otherwise the exact product with `Q_SCALE` truncated toward zero and saturated to int16. -/
def q16 (y : Word) : Half :=
  if f32IsNaN y then 0
  else if f32IsInf y then (if f32Sign y then 0x8000#16 else 0x7FFF#16)
  else
    let t : Nat := f32Units y * Config.qScale / 2 ^ 149
    if f32Sign y then BitVec.ofInt 16 (max (-32768) (-(t : Int))) else BitVec.ofInt 16 (min 32767 (t : Int))

/-- CMP_ENCODE (R124): `RESULT` is the code of `IMM[15:0]`. -/
def execCmpEncode (reserved : BitVec 8) (s16 : Half) (s : State) : Host.Outcome State Fault Refusal :=
  .next (
    if reserved ≠ 0 then s.raise .badOperand
    else s.completeWith ((encodeSample s16).setWidth 32))

/-- CMP_ENCODE_F (R125): `RESULT` is the code of `Q16(F32(ARG))`. -/
def execCmpEncodeF (reserved : BitVec 24) (s : State) : Host.Outcome State Fault Refusal :=
  .next (
    if reserved ≠ 0 then s.raise .badOperand
    else s.completeWith ((encodeSample (q16 (floatOperand s))).setWidth 32))

end Sys2Proof.Machine
end

