-- ==== Sys2Proof/Machine/Control.lean ====
section
/-! DEFINITION. The control unit: NOP (44_pipeline_control R145). -/

namespace Sys2Proof.Machine

open Sys2Proof

/-- NOP (R145): no state changes but `LAST_STATUS <- OK`. -/
def execNop (reserved : BitVec 24) (s : State) : Host.Outcome State Fault Refusal :=
  .next (if reserved ≠ 0 then s.raise .badOperand else s.complete)

end Sys2Proof.Machine
end

