-- ==== Sys2Proof/Machine/Decimator.lean ====
section
/-! DEFINITION. The filter and the decimator (40_filter_downsampler): the filter step, the two internal functions and the three
commands. -/

namespace Sys2Proof.Machine

open Sys2Proof

/-- One second-order section of the filter step: its new delay registers and the running value after it (R78, R79). -/
def sectionStep (c : Section) (d : Delay) (v : Word) : Delay × Word :=
  let fb := add32 (mul32 c.a1 d.z0) (mul32 c.a2 d.z1)
  let w := sub32 v fb
  let ff := add32 (mul32 c.b1 d.z0) (mul32 c.b2 d.z1)
  (⟨w, d.z0⟩, add32 (mul32 c.b0 w) ff)

/-- The sections in order, each with its delay registers; the registers of higher sections stay (R78; 10_state R32). -/
def cascade : List Section → List Delay → Word → List Delay × Word
  | [], ds, v => (ds, v)
  | _ :: _, [], v => ([], v)
  | c :: cs, d :: ds, v =>
    ((sectionStep c d v).1 :: (cascade cs ds (sectionStep c d v).2).1, (cascade cs ds (sectionStep c d v).2).2)

/-- `FilterStep(x)` with the set in use: the gain applied to the input, then the cascade (R78). -/
def filterStep (x : Word) (s : State) : List Delay × Word :=
  cascade s.coef.sections s.delay (mul32 s.coef.gain x)

/-- `DsUpdateCore(x)` (R80): the state after one decimator update. The value it returns is `(filterStep x s).2`. -/
def dsUpdateCore (x : Word) (s : State) : State :=
  let full := decide (s.count.toNat + 1 = s.ratio.toNat)
  { s with
    delay := (filterStep x s).1
    count := if full then 0 else BitVec.ofNat 8 (s.count.toNat + 1)
    ready := s.ready || full
    sample := if full then (filterStep x s).2 else s.sample }

/-- `DsGetCore()` (R81): the state after one sample read. The value it returns is `s.sample`. -/
def dsGetCore (s : State) : State := { s with ready := false }

/-- DS_CONFIG (R82): construct the decimator with ratio `r`, its delay registers and counter zero. -/
def execDsConfig (reserved : BitVec 16) (r : Byte) (s : State) : Host.Outcome State Fault Refusal :=
  .next (
    if reserved ≠ 0 then s.raise .badOperand
    else if !ratioLegal r then s.raise .badOperand
    else State.complete { s with
      ratio := r, dsCfg := true, count := 0, ready := false, sample := 0,
      delay := List.replicate Config.nsecMax ⟨0, 0⟩ })

/-- DS_UPDATE (R83): feed `F32(ARG)`; `RESULT` is the filter output of this update. -/
def execDsUpdate (reserved : BitVec 24) (s : State) : Host.Outcome State Fault Refusal :=
  .next (
    if reserved ≠ 0 then s.raise .badOperand
    else if !s.dsCfg then s.raise .badState
    else (dsUpdateCore (floatOperand s) s).completeWith (filterStep (floatOperand s) s).2)

/-- DS_GET (R84): `RESULT` is the held sample; the ready flag is cleared. -/
def execDsGet (reserved : BitVec 24) (s : State) : Host.Outcome State Fault Refusal :=
  .next (
    if reserved ≠ 0 then s.raise .badOperand
    else if !s.dsCfg then s.raise .badState
    else (dsGetCore s).completeWith s.sample)

end Sys2Proof.Machine
end

