-- ==== Sys2Proof/Machine/Ring.lean ====
section
/-! DEFINITION. The transmit ring (43_ring): the append and the advance, and the three commands. -/

namespace Sys2Proof.Machine

open Sys2Proof

/-- `AdvanceCore()` (R134): `FILL` moves to the next slot; landing on `DRAIN` is an overflow event, counted unless the latch
is already 1; the latch says whether this advance was one. -/
def advanceCore (s : State) : State :=
  { s with
    fill := nextSlot s.params s.fill
    ovfCount := if overflowEvent s && !s.ovfLatch then saturatingSucc s.ovfCount else s.ovfCount
    ovfLatch := overflowEvent s }

/-- The store of `AppendCore(b)`: byte `b` at `RINGMEM[FILL][POS]` (R133). -/
def storeRingByte (b : Byte) (s : State) : State :=
  { s with ringMem := s.ringMem.write (slotAddr s.params s.fill.toNat s.pos.toNat) b }

/-- `AppendCore(b)` (R133): store the byte, and start the next slot when this one is full. -/
def appendCore (b : Byte) (s : State) : State :=
  if s.pos.toNat + 1 = s.params.slotSize then advanceCore { storeRingByte b s with pos := 0 }
  else { storeRingByte b s with pos := BitVec.ofNat 16 (s.pos.toNat + 1) }

/-- RING_RESET (R136): an empty ring and a zero session counter; the storage stays. -/
def execRingReset (reserved : BitVec 24) (s : State) : Host.Outcome State Fault Refusal :=
  .next (
    if reserved ≠ 0 then s.raise .badOperand
    else State.complete { s with fill := 0, drain := 0, pos := 0, ovfCount := 0, ovfLatch := false })

/-- RING_APPEND (R137): append `IMM[7:0]`; it always succeeds. -/
def execRingAppend (reserved : BitVec 16) (byte : Byte) (s : State) : Host.Outcome State Fault Refusal :=
  .next (if reserved ≠ 0 then s.raise .badOperand else (appendCore byte s).complete)

/-- RING_DRAIN (R138): advance `DRAIN` when a slot is pending. -/
def execRingDrain (reserved : BitVec 24) (s : State) : Host.Outcome State Fault Refusal :=
  .next (
    if reserved ≠ 0 then s.raise .badOperand
    else if !s.ringPending then s.raise .badState
    else State.complete { s with drain := nextSlot s.params s.drain })

end Sys2Proof.Machine
end

