-- ==== Sys2Proof/Machine/Pipeline.lean ====
section
/-! DEFINITION. The pipeline command PIPE_HALF (44_pipeline_control R146, R147), from the units' own functions. -/

namespace Sys2Proof.Machine

open Sys2Proof

/-- The unit `1/H` of `Norm`, `H = 2^ADC_BITS`, counted in the unit `2^-149` of binary32: `2^(149 - ADC_BITS)` (R146). -/
def normScale : Nat := 2 ^ (149 - Config.adcBits)

/-- `Norm(a, b) = (a + b - H) / H` (R146). The value is exact in binary32, so the rounding changes nothing. -/
def norm (a b : Half) : Word :=
  let n : Int := (a.toNat : Int) + (b.toNat : Int) - (2 ^ Config.adcBits : Nat)
  roundPack (decide (n < 0)) (n.natAbs * normScale) 0

/-- The tail of one pair's turn: read and append the sample if one is ready; and how many codes that appended (R147). -/
def takeReady (s : State) : State × Nat :=
  if s.ready then (appendCore (encodeSample (q16 s.sample)) (dsGetCore s), 1) else (s, 0)

/-- The pair at cells `cell`, `cell + 1`, as one word: the even cell in bits 15:0 (20_memory R46). -/
def pairWord (cell : Nat) (s : State) : Word := s.capMem.fetchWord (cellAddr cell) s.draws

/-- One turn of PIPE_HALF's loop: the pair at cells `cell` and `cell + 1` through the decimator and, if a sample is ready,
into the ring (R147). -/
def pipePair (cell : Nat) (s : State) : State × Nat :=
  takeReady (dsUpdateCore (norm ((pairWord cell s).extractLsb' 0 16) ((pairWord cell s).extractLsb' 16 16))
    { s with draws := s.draws + 4 })

/-- `pairs` turns from cell `cell` on, in increasing order; and how many codes they appended (R147). -/
def pipePairs : (pairs cell : Nat) → State → State × Nat
  | 0, _, s => (s, 0)
  | pairs + 1, cell, s =>
    ((pipePairs pairs (cell + 2) (pipePair cell s).1).1,
      (pipePair cell s).2 + (pipePairs pairs (cell + 2) (pipePair cell s).1).2)

/-- The pairs of half `h`: `LEN/4` of them from cell `h * (LEN/2)` on (R147). -/
def pipeHalf (h : Nat) (s : State) : State × Nat := pipePairs (s.len.toNat / 4) (h * (s.len.toNat / 2)) s

/-- PIPE_HALF (R147): push half `h` through the pipeline; `RESULT` is the number of codes appended. A half whose
`HALF_VALID` is 0 is the fault CAPTURE_HAZARD, checked after the state checks (70_reset_and_hazards R181; log 12). -/
def execPipeHalf (reserved : BitVec 23) (h : BitVec 1) (s : State) : Host.Outcome State Fault Refusal :=
  if reserved ≠ 0 then .next (s.raise .badOperand)
  else if !s.capCfg || !s.dsCfg then .next (s.raise .badState)
  else if !s.halfValid (halfOperand h) then .fault .captureHazard
  else .next ((pipeHalf (halfOperand h) s).1.completeWith (BitVec.ofNat 32 (pipeHalf (halfOperand h) s).2))

end Sys2Proof.Machine
end

