-- ==== Sys2Proof/Machine/Dispatch.lean ====
section
/-! DEFINITION. The one dispatch from a command to its meaning (30_encoding R64, R66). -/

namespace Sys2Proof.Machine

open Sys2Proof

/-- Execute one decoded command. -/
def exec (i : Instr) (s : State) : Host.Outcome State Fault Refusal :=
  match i with
  | .nop reserved => Sys2Proof.Machine.execNop reserved s
  | .capConfig reserved ch => Sys2Proof.Machine.execCapConfig reserved ch s
  | .capStart reserved => Sys2Proof.Machine.execCapStart reserved s
  | .capStop reserved => Sys2Proof.Machine.execCapStop reserved s
  | .capClear reserved mask => Sys2Proof.Machine.execCapClear reserved mask s
  | .dsConfig reserved r => Sys2Proof.Machine.execDsConfig reserved r s
  | .dsUpdate reserved => Sys2Proof.Machine.execDsUpdate reserved s
  | .dsGet reserved => Sys2Proof.Machine.execDsGet reserved s
  | .cmpEncode reserved s16 => Sys2Proof.Machine.execCmpEncode reserved s16 s
  | .cmpEncodeF reserved => Sys2Proof.Machine.execCmpEncodeF reserved s
  | .ringReset reserved => Sys2Proof.Machine.execRingReset reserved s
  | .ringAppend reserved byte => Sys2Proof.Machine.execRingAppend reserved byte s
  | .ringDrain reserved => Sys2Proof.Machine.execRingDrain reserved s
  | .pipeHalf reserved h => Sys2Proof.Machine.execPipeHalf reserved h s

end Sys2Proof.Machine
end

