-- ==== Sys2Proof/Machine/Bus.lean ====
section
/-! DEFINITION. The bus interface (20_memory): what a read returns, what a write does, and one event of the total order. -/

namespace Sys2Proof.Machine

open Sys2Proof

/-- The registers of 20_memory R40 by offset; a reserved offset reads 0 (R45), and so does CMD (R40). -/
def registerWord (s : State) (off : Nat) : Word :=
  match off with
  | 0x0000 => 0
  | 0x0004 => s.arg
  | 0x0008 => s.result
  | 0x000C => statusWord s
  | 0x0010 => s.channel.setWidth 32
  | 0x0014 => s.len
  | 0x0018 => s.rate
  | 0x001C => s.widx
  | 0x0020 => s.ratio.setWidth 32
  | 0x0024 => s.count.setWidth 32
  | 0x0028 => s.sample
  | 0x002C => if s.dsCfg then BitVec.ofNat 32 s.coef.sections.length else 0
  | 0x0030 => s.fill.setWidth 32
  | 0x0034 => s.drain.setWidth 32
  | 0x0038 => s.pos.setWidth 32
  | 0x003C => s.ovfCount
  | 0x0040 => BitVec.ofNat 8 0 ++ BitVec.ofNat 8 s.params.ringN ++ BitVec.ofNat 16 s.params.slotSize
  | 0x0044 => BitVec.ofNat 8 Config.nsecMax ++ BitVec.ofNat 3 0 ++ BitVec.ofNat 5 Config.adcBits ++ BitVec.ofNat 16 Config.capLenMax
  | _ => 0

/-- The FSTATE window (R44): `Z0[k]` and `Z1[k]` at `0x0100 + 8*k` and `0x0104 + 8*k`. -/
def fstateWord (s : State) (off : Nat) : Word :=
  let d := s.delay.getD ((off - 0x100) / 8) ⟨0, 0⟩
  if off % 8 = 0 then d.z0 else d.z1

/-- The ring window (R47): the stored bytes end to end, and 0 at or past `RING_N * SLOT_SIZE`. -/
def ringWord (s : State) (off : Nat) : Word :=
  if off - 0x2000 < s.params.ringN * s.params.slotSize then s.ringMem.fetchWord off s.draws else 0

/-- What a 32-bit aligned read inside the window returns (R40, R44, R45, R46, R47). -/
def busWord (s : State) (off : Nat) : Word :=
  if off < 0x100 then registerWord s off
  else if off < 0x180 then fstateWord s off
  else if off < 0x1000 then 0
  else if off < 0x2000 then s.capMem.fetchWord off s.draws
  else ringWord s off

/-- A bus access must be 32 bits wide and aligned (R49). -/
def accessLegal (off size : Nat) : Bool := size == 4 && off % 4 == 0

/-- A bus read (R40, R41, R49, R50, R52): the word goes to the controller, `readData`; no state element of the block changes.
A read of a storage window uses four draw numbers (log 6). -/
def busRead (off size : Nat) (s : State) : Host.Outcome State Fault Refusal :=
  if 0x4000 ≤ off then .refused (.outsideBlock off)
  else if !accessLegal off size then .fault .busError
  else .next { s with readData := busWord s off, draws := if 0x1000 ≤ off then s.draws + 4 else s.draws }

/-- Issue the command of a word written to `CMD` (30_encoding R66): a reserved opcode is BAD_OPCODE (R65). -/
def issue (w : Word) (s : State) : Host.Outcome State Fault Refusal :=
  match decode w with
  | .ok i => exec i s
  | .error (.reservedOpcode _) => .next (s.raise .badOpcode)

/-- A bus write (R41, R49, R50, R51): at `CMD` it executes a command, at `ARG` it sets `ARG`, anywhere else inside the
window it is ignored. -/
def busWrite (off size : Nat) (w : Word) (s : State) : Host.Outcome State Fault Refusal :=
  if 0x4000 ≤ off then .refused (.outsideBlock off)
  else if !accessLegal off size then .fault .busError
  else if off = 0x0000 then issue w s
  else if off = 0x0004 then .next { s with arg := w }
  else .next s

/-- The platform's reset (70_reset_and_hazards R175, R176): every state element takes its reset value. The model's own fields
stay: the build parameters, the events still to come, the controller's last read, the draw counter (log 13). -/
def resetBlock (s : State) : State :=
  { State.resetWith s.params with schedule := s.schedule, readData := s.readData, draws := s.draws }

/-- One event of the total order (R55). -/
def runEvent (e : Event) (s : State) : Host.Outcome State Fault Refusal :=
  match e with
  | .read off size => busRead off size s
  | .write off size w => busWrite off size w s
  | .tick a b => .next (scheduledTick a b s)
  | .reset => .next (resetBlock s)

/-- A read of `size` bytes at a platform bus address, as an event of this block (20_memory R40; log 8). -/
def readAt (p : Params) (address size : Nat) : Option Event :=
  (offsetOf p address).map (fun off => .read off size)

/-- A write of `size` bytes at a platform bus address, as an event of this block (20_memory R40; log 8). -/
def writeAt (p : Params) (address size : Nat) (w : Word) : Option Event :=
  (offsetOf p address).map (fun off => .write off size w)

end Sys2Proof.Machine
end

