-- ==== Sys2Proof/Machine/Step.lean ====
section
/-! DEFINITION. One step of the block: the next event of its total order (20_memory R55; log 1, 3). -/

namespace Sys2Proof.Machine

open Sys2Proof

/-- Perform the next event of the schedule; with none left, the engine ticks by itself while `RUN = 1` and the block is idle
otherwise (20_memory R55; 41_capture R107; log 1, 3). DESIGN CHOICE: once the schedule is used up, the controller never acts again
(log 20). -/
def step (s : State) : Host.Outcome State Fault Refusal :=
  match s.schedule with
  | [] => .next (idle s)
  | e :: rest => runEvent e { s with schedule := rest }

/-- The state with the command word `w` as its very next event: a 32-bit write at `CMD` (30_encoding R60; log 2). -/
def State.withFetchWord (s : State) (nbits w : Nat) : State :=
  { s with schedule := .write 0x0000 4 (BitVec.ofNat 32 (w % 2 ^ nbits)) :: s.schedule }

end Sys2Proof.Machine
end

