-- ==== Sys2Proof/Safety.lean ====
section
/-! DEFINITION. What counts as a sound state of the block, in the terms the statements use: the invariants of 10_state R22, R29,
R31, R32, R34, R37, the canonical form of the storage, and what `HALF_VALID` promises (10_state R38). -/

namespace Sys2Proof.Machine

open Sys2Proof

/-- A capture cell, if both of its bytes have been written (10_state R30; 20_memory R46, R48). -/
def State.capCell (s : State) (i : Nat) : Option Half :=
  match s.capMem.read (cellAddr i), s.capMem.read (cellAddr i + 1) with
  | some lo, some hi => some (hi ++ lo)
  | _, _ => none

/-- A byte of ring storage, if it has been written (10_state R35). -/
def State.ringByte (s : State) (slot b : Nat) : Option Byte := s.ringMem.read (slotAddr s.params slot b)

/-- Capture invariant (10_state R22, R28, R29, R37). -/
abbrev State.CaptureInv (s : State) : Prop :=
  (s.capCfg = true → lengthLegal s.len = true ∧ channelLegal s.params s.channel = true ∧
    s.widx.toNat % 2 = 0 ∧ s.widx.toNat < s.len.toNat) ∧
  (s.capCfg = false → s.len = 0 ∧ s.channel = 0 ∧ s.widx = 0 ∧ s.ht = false ∧ s.tc = false ∧
    s.halfValid0 = false ∧ s.halfValid1 = false) ∧
  (s.run = true → s.capCfg = true ∧ rateLegal s.params s.rate = true)

/-- Decimator invariant (10_state R22, R31, R32, R37). -/
abbrev State.DecimatorInv (s : State) : Prop :=
  (s.dsCfg = true → ratioLegal s.ratio = true ∧ s.count.toNat < s.ratio.toNat) ∧
  (s.dsCfg = false → s.ratio = 0 ∧ s.count = 0 ∧ s.ready = false ∧ s.sample = 0) ∧
  s.delay.length = Config.nsecMax ∧
  s.delay.drop (if s.dsCfg then s.coef.sections.length else 0) =
    List.replicate (Config.nsecMax - (if s.dsCfg then s.coef.sections.length else 0)) ⟨0, 0⟩

/-- Ring invariant (10_state R22, R34, R37). -/
abbrev State.RingInv (s : State) : Prop :=
  s.fill.toNat < s.params.ringN ∧ s.drain.toNat < s.params.ringN ∧ s.pos.toNat < s.params.slotSize ∧
    (s.ovfLatch = true → s.fill = s.drain)

/-- The invariants of 10_state R37, with the ranges of R22 and the legal parameters of 00_scope R7. -/
abbrev State.Inv (s : State) : Prop :=
  s.params.Wf ∧ s.CaptureInv ∧ s.DecimatorInv ∧ s.RingInv

/-- Both storage arrays are in canonical form and hold only addresses the block has (20_memory R40, R46, R47). -/
abbrev State.StorageInv (s : State) : Prop :=
  s.capMem.wf ∧ s.ringMem.wf ∧
  (∀ e ∈ s.capMem, 0x1000 ≤ e.1 ∧ e.1 < 0x2000) ∧
  (∀ e ∈ s.ringMem, 0x2000 ≤ e.1 ∧ e.1 < 0x2000 + s.params.ringN * s.params.slotSize)

/-- Every capture cell from `lo` up to, not including, `hi` has been written. -/
abbrev State.cellsWritten (s : State) (lo hi : Nat) : Prop :=
  ∀ i, i < hi → lo ≤ i → (s.capCell i).isSome = true

/-- What `HALF_VALID` promises (10_state R38): a valid half is completely written, and so is the part of the current half
before `WIDX`. -/
abbrev State.CapturedInv (s : State) : Prop :=
  (s.halfValid0 = true → s.cellsWritten 0 (s.len.toNat / 2)) ∧
  (s.halfValid1 = true → s.cellsWritten (s.len.toNat / 2) s.len.toNat) ∧
  s.cellsWritten (if s.widx.toNat < s.len.toNat / 2 then 0 else s.len.toNat / 2) s.widx.toNat

/-- Bits `15:ADC_BITS` of every capture cell are 0 (10_state R30): the high byte of a cell, at an odd offset, is below 16. -/
abbrev State.CodesInv (s : State) : Prop := ∀ e ∈ s.capMem, e.1 % 2 = 1 → e.2.toNat < 16

end Sys2Proof.Machine
end

