-- ==== Sys2Proof/WellFormed.lean ====
section
/-! DEFINITION. A command is well formed when every reserved bit of its `IMM` is 0 (30_encoding R63). An ill-formed one still
decodes to its opcode's command, and executing it ends with BAD_OPERAND (log 10). -/

namespace Sys2Proof

/-- Every bit of `IMM` that 30_encoding R62 lists for no operand is 0 (R63). -/
def Instr.wellFormed : Instr → Bool
  | .nop reserved => reserved == 0
  | .capConfig reserved _ => reserved == 0
  | .capStart reserved => reserved == 0
  | .capStop reserved => reserved == 0
  | .capClear reserved _ => reserved == 0
  | .dsConfig reserved _ => reserved == 0
  | .dsUpdate reserved => reserved == 0
  | .dsGet reserved => reserved == 0
  | .cmpEncode reserved _ => reserved == 0
  | .cmpEncodeF reserved => reserved == 0
  | .ringReset reserved => reserved == 0
  | .ringAppend reserved _ => reserved == 0
  | .ringDrain reserved => reserved == 0
  | .pipeHalf reserved _ => reserved == 0

end Sys2Proof
end

