-- ==== Sys2Proof/Certificates/Slice0/Obligations.lean ====
section
/-! DEFINITION. The statements for the provers, each from the numbered rules of spec/ its docstring names. The functions before
them restate what a rule says in the rule's own form, so that a statement is not the definition it is about. -/

namespace Sys2Proof.Statements

open Sys2Proof Sys2Proof.Machine

/-! ## Encoding -/

/-- The 14 defined values of `OPC` (30_encoding R64, R66). -/
def definedOpcodes : List Nat :=
  [0x00, 0x10, 0x11, 0x12, 0x13, 0x20, 0x21, 0x22, 0x30, 0x31, 0x40, 0x41, 0x42, 0x50]

/-- The command of a defined opcode with the `IMM` value `imm`, its operands by arithmetic on `imm` (30_encoding R62, R64). -/
def commandOf (opc imm : Nat) : Option Instr :=
  if opc = 0x00 then some (.nop (BitVec.ofNat 24 imm))
  else if opc = 0x10 then some (.capConfig (BitVec.ofNat 16 (imm / 256)) (BitVec.ofNat 8 (imm % 256)))
  else if opc = 0x11 then some (.capStart (BitVec.ofNat 24 imm))
  else if opc = 0x12 then some (.capStop (BitVec.ofNat 24 imm))
  else if opc = 0x13 then some (.capClear (BitVec.ofNat 22 (imm / 4)) (BitVec.ofNat 2 (imm % 4)))
  else if opc = 0x20 then some (.dsConfig (BitVec.ofNat 16 (imm / 256)) (BitVec.ofNat 8 (imm % 256)))
  else if opc = 0x21 then some (.dsUpdate (BitVec.ofNat 24 imm))
  else if opc = 0x22 then some (.dsGet (BitVec.ofNat 24 imm))
  else if opc = 0x30 then some (.cmpEncode (BitVec.ofNat 8 (imm / 65536)) (BitVec.ofNat 16 (imm % 65536)))
  else if opc = 0x31 then some (.cmpEncodeF (BitVec.ofNat 24 imm))
  else if opc = 0x40 then some (.ringReset (BitVec.ofNat 24 imm))
  else if opc = 0x41 then some (.ringAppend (BitVec.ofNat 16 (imm / 256)) (BitVec.ofNat 8 (imm % 256)))
  else if opc = 0x42 then some (.ringDrain (BitVec.ofNat 24 imm))
  else if opc = 0x50 then some (.pipeHalf (BitVec.ofNat 23 (imm / 2)) (BitVec.ofNat 1 (imm % 2)))
  else none

/-! ## Registers and windows -/

/-- The registers of 20_memory R40 that mirror a state element, by offset; CMD reads 0. -/
def registerMap (s : State) : List (Nat × Word) :=
  [(0x0000, 0#32), (0x0004, s.arg), (0x0008, s.result), (0x000C, statusWord s), (0x0010, BitVec.ofNat 32 s.channel.toNat),
   (0x0014, s.len), (0x0018, s.rate), (0x001C, s.widx), (0x0020, BitVec.ofNat 32 s.ratio.toNat),
   (0x0024, BitVec.ofNat 32 s.count.toNat), (0x0028, s.sample),
   (0x002C, if s.dsCfg then BitVec.ofNat 32 (coefOf s.params s.ratio).sections.length else 0#32),
   (0x0030, BitVec.ofNat 32 s.fill.toNat), (0x0034, BitVec.ofNat 32 s.drain.toNat),
   (0x0038, BitVec.ofNat 32 s.pos.toNat), (0x003C, s.ovfCount)]

/-- A bit as a number. -/
def bit (b : Bool) : Nat := if b then 1 else 0

/-- The codes of 60_exceptions R156. -/
def statusCode : Status → Nat
  | .ok => 0
  | .badOpcode => 1
  | .badOperand => 2
  | .badState => 3

/-- The reserved offsets of 20_memory R40. -/
abbrev reservedOffset (off : Nat) : Prop := (0x48 ≤ off ∧ off < 0x100) ∨ (0x180 ≤ off ∧ off < 0x1000)

/-- Every byte a read at `off` returns has been written, or `off` is no storage window (so no draw is part of it). -/
def readsNoDraw (s : State) (off : Nat) : Prop :=
  off < 0x1000 ∨
  (off < 0x2000 ∧ ∀ k, k < 4 → s.capMem.read (off + k) ≠ none) ∨
  (0x2000 ≤ off ∧ ∀ k, k < 4 → s.ringMem.read (off + k) ≠ none) ∨
  0x2000 + s.params.ringN * s.params.slotSize ≤ off

/-! ## Statuses (60_exceptions R157, R158) -/

/-- The column "BAD_OPERAND when (besides reserved bits)" of 60_exceptions R157. -/
def badOperandWhen (i : Instr) (s : State) : Bool :=
  match i with
  | .capConfig _ ch => decide (ch.toNat > s.params.channelMax ∨ s.arg.toNat < 4 ∨ s.arg.toNat > 2048 ∨ s.arg.toNat % 4 ≠ 0)
  | .capStart _ => decide (s.arg.toNat = 0 ∨ s.arg.toNat > s.params.rateMax)
  | .dsConfig _ r => decide (r.toNat ∉ [5, 10, 20, 50, 100])
  | _ => false

/-- The column "BAD_STATE when" of 60_exceptions R157. -/
def badStateWhen (i : Instr) (s : State) : Bool :=
  match i with
  | .capConfig _ _ => s.run
  | .capStart _ => !s.capCfg || s.run
  | .dsUpdate _ => !s.dsCfg
  | .dsGet _ => !s.dsCfg
  | .ringDrain _ => decide (s.fill = s.drain)
  | .pipeHalf _ _ => !s.capCfg || !s.dsCfg
  | _ => false

/-- The status a command word ends with: the first cause in the order of 60_exceptions R158. -/
def statusOf (w : Word) (s : State) : Status :=
  match commandOf (w.toNat / 2 ^ 24) (w.toNat % 2 ^ 24) with
  | none => .badOpcode
  | some i =>
    if i.wellFormed = false then .badOperand
    else if badOperandWhen i s then .badOperand
    else if badStateWhen i s then .badState
    else .ok

/-! ## Commands in sequence -/

/-- The state after one command that answers a next state. -/
def after (i : Instr) (s : State) : State :=
  match exec i s with
  | .next t => t
  | _ => s

/-- `ARG <- x`, then DS_UPDATE. -/
def feed (s : State) (x : Word) : State := after (.dsUpdate 0) { s with arg := x }

/-- `ARG <- x`, DS_UPDATE, and DS_GET if that left `READY = 1` (40_filter_downsampler R86). -/
def feedAndRead (s : State) (x : Word) : State :=
  if (feed s x).ready then after (.dsGet 0) (feed s x) else feed s x

/-- The `RESULT` values a sequence of DS_UPDATE inputs leaves (40_filter_downsampler R85). -/
def feedResults : State → List Word → List Word
  | _, [] => []
  | s, x :: xs => (feed s x).result :: feedResults (feed s x) xs

/-- RING_APPEND of one byte. -/
def append (s : State) (b : Byte) : State := after (.ringAppend 0 b) s

/-- Engine ticks with these draws, one after the other. -/
def ticks : List (Code × Code) → State → State
  | [], s => s
  | (a, b) :: ds, s => ticks ds (tick a b s)

/-! ## The filter by index (40_filter_downsampler R78) -/

/-- The set of each ratio (10_state R33; 00_scope R12). -/
def coefTable (p : Params) : List (Nat × CoefSet) :=
  [(5, p.coef5), (10, p.coef10), (20, p.coef20), (50, p.coef50), (100, p.coef100)]

/-- `w` of a section: the running value after the feedback subtraction. -/
def sectionW (c : Section) (d : Delay) (v : Word) : Word :=
  sub32 v (add32 (mul32 c.a1 d.z0) (mul32 c.a2 d.z1))

/-- `v` after a section: `b0*w` plus the feed-forward sum. -/
def sectionV (c : Section) (d : Delay) (v : Word) : Word :=
  add32 (mul32 c.b0 (sectionW c d v)) (add32 (mul32 c.b1 d.z0) (mul32 c.b2 d.z1))

/-- The running value before section `k`. -/
def running (cs : List Section) (ds : List Delay) (v : Word) : Nat → Word
  | 0 => v
  | k + 1 =>
    match cs[k]?, ds[k]? with
    | some c, some d => sectionV c d (running cs ds v k)
    | _, _ => running cs ds v k

/-! ## Rounding (40_filter_downsampler R76) -/

/-- A finite binary32. -/
abbrev finite (x : Word) : Prop := f32IsNaN x = false ∧ f32IsInf x = false

/-- The infinity of a sign. -/
def infinity (negative : Bool) : Word := if negative then 0xFF800000#32 else 0x7F800000#32

/-- `r` is the real number `exact / 2^k` (in units of `2^-149`) rounded to binary32, to nearest with ties to even, a result too
large going to the infinity of its sign: `(2^25 - 1) * 2^252` units is the midpoint above the largest finite number. -/
def correctlyRounded (exact : Int) (k : Nat) (r : Word) : Prop :=
  f32Sign r = decide (exact < 0) ∧
  if (2 ^ 25 - 1) * 2 ^ 252 * 2 ^ k ≤ exact.natAbs then r = f32Inf (decide (exact < 0))
  else finite r ∧ ∀ y, finite y →
    (exact - f32Int r * 2 ^ k).natAbs ≤ (exact - f32Int y * 2 ^ k).natAbs ∧
    ((exact - f32Int r * 2 ^ k).natAbs = (exact - f32Int y * 2 ^ k).natAbs → f32Int y ≠ f32Int r → r.getLsbD 0 = false)

/-! ## PIPE_HALF (44_pipeline_control R147) -/

/-- The cell a read of `CAPMEM[i]` returns at draw number `n` (10_state R39). -/
def cellRead (s : State) (i n : Nat) : Half :=
  s.capMem.fetch (cellAddr i + 1) (n + 1) ++ s.capMem.fetch (cellAddr i) n

/-- One turn of the loop of R147: pair `k` of the half that begins at cell `base`, and the count `n` so far. -/
def halfTurn (base : Nat) (sn : State × Nat) (k : Nat) : State × Nat :=
  let v := norm (cellRead sn.1 (base + 2 * k) sn.1.draws) (cellRead sn.1 (base + 2 * k + 1) (sn.1.draws + 2))
  let u := dsUpdateCore v { sn.1 with draws := sn.1.draws + 4 }
  if u.ready then (appendCore (encodeSample (q16 u.sample)) { u with ready := false }, sn.2 + 1) else (u, sn.2)

/-- The whole loop of R147 for half `h`. -/
def halfLoop (h : Nat) (s : State) : State × Nat :=
  (List.range (s.len.toNat / 4)).foldl (halfTurn (h * (s.len.toNat / 2))) (s, 0)

/-- The storage addresses of the next `n` appended bytes when slot `fill` holds `pos` of them (43_ring R133). -/
def appendAddrs (p : Params) : Nat → Byte → Half → List Nat
  | 0, _, _ => []
  | n + 1, fill, pos =>
    slotAddr p fill.toNat pos.toNat ::
      (if pos.toNat + 1 = p.slotSize then appendAddrs p n (nextSlot p fill) 0
       else appendAddrs p n fill (BitVec.ofNat 16 (pos.toNat + 1)))

end Sys2Proof.Statements

open Sys2Proof Sys2Proof.Machine Sys2Proof.Statements

/-! ## Encoding -/

/-- 30_encoding R60, R62, R64: no bit of a command word is dropped. -/
def Obligations.DecodeOfEncodeIsTheCommand : Prop := ∀ i : Instr, decode (encode i) = .ok i

/-- 30_encoding R60, R62, R64: a word has one reading. -/
def Obligations.EncodeOfDecodeIsTheWord : Prop := ∀ (w : Word) (i : Instr), decode w = .ok i → encode i = w

/-- 30_encoding R60, R62, R64: `OPC` is `w[31:24]`, `IMM` is `w[23:0]`, and each operand is the sub-field R62 gives it. -/
def Obligations.DecodeReadsOpcAndImmFields : Prop :=
  ∀ w : Word,
    match commandOf (w.toNat / 2 ^ 24) (w.toNat % 2 ^ 24) with
    | some i => decode w = .ok i
    | none => decode w = .error (.reservedOpcode (BitVec.ofNat 8 (w.toNat / 2 ^ 24)))

/-- 95_test_vectors E-1: command words written out. -/
def Obligations.WrittenOutWordsDecode : Prop :=
  decode 0x00000000#32 = .ok (.nop 0) ∧ decode 0x10000003#32 = .ok (.capConfig 0 3) ∧
  decode 0x13000003#32 = .ok (.capClear 0 3) ∧ decode 0x2000000A#32 = .ok (.dsConfig 0 10) ∧
  decode 0x3000FFFF#32 = .ok (.cmpEncode 0 0xFFFF) ∧ decode 0x410000AB#32 = .ok (.ringAppend 0 0xAB) ∧
  decode 0x50000001#32 = .ok (.pipeHalf 0 1)

/-! ## The bus -/

/-- 30_encoding R60, R66; 20_memory R51: a step whose event is a 32-bit write at CMD executes the decoded command, in the
state without that event. -/
def Obligations.CmdWriteStepExecutesTheDecodedCommand : Prop :=
  ∀ (s : State) (w : Word) (rest : List Event) (i : Instr),
    s.schedule = .write 0x0000 4 w :: rest → decode w = .ok i → step s = exec i { s with schedule := rest }

/-- 30_encoding R65: a reserved opcode ends with BAD_OPCODE and changes nothing else; 242 of the 256 values are reserved. -/
def Obligations.ReservedOpcodeEndsWithBadOpcode : Prop :=
  ((List.range 256).filter (fun o => !definedOpcodes.contains o)).length = 242 ∧
  ∀ (s : State) (w : Word) (rest : List Event),
    s.schedule = .write 0x0000 4 w :: rest → w.toNat / 2 ^ 24 ∉ definedOpcodes →
    step s = .next { s with schedule := rest, lastStatus := .badOpcode }

/-- 20_memory R51: a 32-bit write at CMD executes a command, at ARG sets ARG, anywhere else in the window is ignored. -/
def Obligations.WritesReachOnlyCmdAndArg : Prop :=
  ∀ (s : State) (off : Nat) (w : Word) (rest : List Event),
    s.schedule = .write off 4 w :: rest → off < 0x4000 → off % 4 = 0 →
    step s =
      if off = 0x0000 then issue w { s with schedule := rest }
      else if off = 0x0004 then .next { s with schedule := rest, arg := w }
      else .next { s with schedule := rest }

/-- 20_memory R49: an access inside the window that is not 32 bits wide or not aligned is a bus error, read or write. -/
def Obligations.MalformedAccessIsABusError : Prop :=
  ∀ (s : State) (off size : Nat) (w : Word) (rest : List Event),
    off < 0x4000 → (size ≠ 4 ∨ off % 4 ≠ 0) →
    step { s with schedule := .read off size :: rest } = .fault .busError ∧
    step { s with schedule := .write off size w :: rest } = .fault .busError

/-- 20_memory R40: what a read of each register returns. The word goes to the model's `readData` (log 7). -/
def Obligations.RegisterReadsReturnTheirElement : Prop :=
  ∀ (s : State) (off : Nat) (v : Word) (rest : List Event),
    s.schedule = .read off 4 :: rest → (off, v) ∈ registerMap s →
    step s = .next { s with schedule := rest, readData := v }

/-- 20_memory R42: every bit of the word a read of STATUS returns, and that it is 0 after reset. -/
def Obligations.StatusWordHasItsFields : Prop :=
  (∀ (s : State) (rest : List Event),
    step { s with schedule := .read 0x000C 4 :: rest } =
      .next { s with
        schedule := rest,
        readData := BitVec.ofNat 32 (bit s.ht + 2 * bit s.tc + 4 * bit s.run + 8 * bit s.capCfg + 16 * bit s.dsCfg +
          32 * bit s.ready + 64 * bit (decide (s.fill ≠ s.drain)) + 128 * bit s.ovfLatch + 256 * statusCode s.lastStatus) }) ∧
  busWord State.reset 0x000C = 0

/-- 20_memory R43: the two parameter registers, for every legal parameter value. -/
def Obligations.ParameterRegistersReadTheirFields : Prop :=
  ∀ (s : State) (rest : List Event), s.params.Wf →
    step { s with schedule := .read 0x0040 4 :: rest } =
      .next { s with schedule := rest, readData := BitVec.ofNat 32 (s.params.ringN * 65536 + s.params.slotSize) } ∧
    step { s with schedule := .read 0x0044 4 :: rest } =
      .next { s with schedule := rest, readData := BitVec.ofNat 32 (16 * 2 ^ 24 + 12 * 2 ^ 16 + 2048) }

/-- 20_memory R44: the FSTATE window shows the delay registers; those of sections at or above `NSEC(RATIO)` read 0. -/
def Obligations.FstateWindowShowsDelayRegisters : Prop :=
  ∀ (s : State) (k : Nat) (rest : List Event), k < 16 →
    (∀ d, s.delay[k]? = some d →
      step { s with schedule := .read (0x0100 + 8 * k) 4 :: rest } = .next { s with schedule := rest, readData := d.z0 } ∧
      step { s with schedule := .read (0x0104 + 8 * k) 4 :: rest } = .next { s with schedule := rest, readData := d.z1 }) ∧
    (s.Inv → s.coef.sections.length ≤ k →
      step { s with schedule := .read (0x0100 + 8 * k) 4 :: rest } = .next { s with schedule := rest, readData := 0 } ∧
      step { s with schedule := .read (0x0104 + 8 * k) 4 :: rest } = .next { s with schedule := rest, readData := 0 })

/-- 20_memory R46, R48: a capture-window word holds cell `2k` in bits 15:0 and cell `2k+1` in bits 31:16. -/
def Obligations.CaptureWindowShowsPairs : Prop :=
  ∀ (s : State) (k : Nat) (x y : Half) (rest : List Event),
    k < 1024 → s.schedule = .read (0x1000 + 4 * k) 4 :: rest →
    s.capCell (2 * k) = some x → s.capCell (2 * k + 1) = some y →
    step s = .next { s with schedule := rest, readData := y ++ x, draws := s.draws + 4 }

/-- 20_memory R47, R48: a ring-window word holds bytes `4k .. 4k+3` of the ring storage, byte `4k+j` in bits `8j+7:8j`, each of
them whether or not the other three have been written (10_state R39); words at or past `RING_N * SLOT_SIZE` read 0. -/
def Obligations.RingWindowShowsSlotBytes : Prop :=
  ∀ (s : State) (k : Nat) (rest : List Event), s.params.Wf → k < 2048 → s.schedule = .read (0x2000 + 4 * k) 4 :: rest →
    (4 * k < s.params.ringN * s.params.slotSize →
      ∃ v, step s = .next { s with schedule := rest, readData := v, draws := s.draws + 4 } ∧
        ∀ (j : Nat) (b : Byte), j < 4 →
          s.ringByte (4 * k / s.params.slotSize) (4 * k % s.params.slotSize + j) = some b → v.extractLsb' (8 * j) 8 = b) ∧
    (s.params.ringN * s.params.slotSize ≤ 4 * k →
      step s = .next { s with schedule := rest, readData := 0, draws := s.draws + 4 })

/-- 20_memory R45: a read of a reserved offset returns 0, a write there changes nothing. -/
def Obligations.ReservedOffsetsReadZeroAndIgnoreWrites : Prop :=
  ∀ (s : State) (off : Nat) (w : Word) (rest : List Event), reservedOffset off → off % 4 = 0 →
    step { s with schedule := .read off 4 :: rest } = .next { s with schedule := rest, readData := 0 } ∧
    step { s with schedule := .write off 4 w :: rest } = .next { s with schedule := rest }

/-- 20_memory R52: a read changes no element of the block, and a second read with nothing between returns the same word unless a
draw is part of it. -/
def Obligations.ReadsHaveNoSideEffect : Prop :=
  ∀ (s t : State) (off : Nat) (rest : List Event),
    s.schedule = .read off 4 :: .read off 4 :: rest → step s = .next t →
    t = { s with schedule := .read off 4 :: rest, readData := t.readData, draws := t.draws } ∧
    (readsNoDraw s off → ∃ u, step t = .next u ∧ u.readData = t.readData)

/-- 10_state R39: every capture cell and every ring byte that nothing has written reads as free values, fresh ones at every read,
whatever the rest of its word is. Which draw number each byte takes is the model's own choice (log 6). -/
def Obligations.UnwrittenStorageReadsAsFreeValues : Prop :=
  ∀ (s : State) (k : Nat) (rest : List Event),
    (k < 1024 →
      ∃ v, step { s with schedule := .read (0x1000 + 4 * k) 4 :: rest } =
          .next { s with schedule := rest, readData := v, draws := s.draws + 4 } ∧
        (∀ j, j < 4 → s.capMem.read (0x1000 + 4 * k + j) = none →
          v.extractLsb' (8 * j) 8 = Config.freeByte (s.draws + j)) ∧
        (∀ i, i < 2 → s.capMem.read (0x1000 + 2 * (2 * k + i)) = none → s.capMem.read (0x1000 + 2 * (2 * k + i) + 1) = none →
          v.extractLsb' (16 * i) 16 = Config.freeByte (s.draws + 2 * i + 1) ++ Config.freeByte (s.draws + 2 * i))) ∧
    (k < 2048 → 4 * k < s.params.ringN * s.params.slotSize →
      ∃ v, step { s with schedule := .read (0x2000 + 4 * k) 4 :: rest } =
          .next { s with schedule := rest, readData := v, draws := s.draws + 4 } ∧
        ∀ j, j < 4 → s.ringMem.read (0x2000 + 4 * k + j) = none → v.extractLsb' (8 * j) 8 = Config.freeByte (s.draws + j))

/-! ## Commands: result, frame and completion in one -/

/-- 44_pipeline_control R145: NOP sets `LAST_STATUS` to OK, or to BAD_OPERAND if `IMM` is not 0; nothing else changes. -/
def Obligations.NopOnlySetsLastStatus : Prop :=
  ∀ (s : State) (rsv : BitVec 24),
    exec (.nop rsv) s = .next { s with lastStatus := if rsv = 0 then .ok else .badOperand }

/-- 41_capture R100: CAP_CONFIG, its effect and every refusal in the order of the rule. -/
def Obligations.CapConfigConstructsTheCaptureUnit : Prop :=
  ∀ (s : State) (rsv : BitVec 16) (ch : Byte),
    ((rsv ≠ 0 ∨ ch.toNat > s.params.channelMax ∨ s.arg.toNat < 4 ∨ s.arg.toNat > 2048 ∨ s.arg.toNat % 4 ≠ 0) →
      exec (.capConfig rsv ch) s = .next { s with lastStatus := .badOperand }) ∧
    (rsv = 0 → ch.toNat ≤ s.params.channelMax → 4 ≤ s.arg.toNat → s.arg.toNat ≤ 2048 → s.arg.toNat % 4 = 0 →
      exec (.capConfig rsv ch) s =
        .next (if s.run = true then { s with lastStatus := .badState }
               else { s with channel := ch, len := s.arg, capCfg := true, widx := 0, ht := false, tc := false,
                             halfValid0 := false, halfValid1 := false, lastStatus := .ok }))

/-- 41_capture R101: CAP_START, its effect and every refusal in the order of the rule. -/
def Obligations.CapStartArmsTheEngine : Prop :=
  ∀ (s : State) (rsv : BitVec 24),
    ((rsv ≠ 0 ∨ s.arg.toNat = 0 ∨ s.arg.toNat > s.params.rateMax) →
      exec (.capStart rsv) s = .next { s with lastStatus := .badOperand }) ∧
    (rsv = 0 → s.arg.toNat ≠ 0 → s.arg.toNat ≤ s.params.rateMax →
      exec (.capStart rsv) s =
        .next (if s.capCfg = false ∨ s.run = true then { s with lastStatus := .badState }
               else { s with rate := s.arg, widx := 0, ht := false, tc := false, halfValid0 := false,
                             halfValid1 := false, run := true, lastStatus := .ok }))

/-- 41_capture R102: CAP_STOP clears RUN and nothing else, in every state. -/
def Obligations.CapStopOnlyClearsRun : Prop :=
  ∀ (s : State) (rsv : BitVec 24),
    exec (.capStop rsv) s =
      .next (if rsv = 0 then { s with run := false, lastStatus := .ok } else { s with lastStatus := .badOperand })

/-- 41_capture R104: CAP_CLEAR clears the flags the mask names and no others. -/
def Obligations.CapClearClearsNamedFlagsOnly : Prop :=
  ∀ (s : State) (rsv : BitVec 22) (mask : BitVec 2),
    exec (.capClear rsv mask) s =
      .next (if rsv = 0 then
               { s with ht := decide (mask.toNat % 2 = 0) && s.ht, tc := decide (mask.toNat < 2) && s.tc, lastStatus := .ok }
             else { s with lastStatus := .badOperand })

/-- 40_filter_downsampler R82: DS_CONFIG, its effect and its refusals. -/
def Obligations.DsConfigConstructsTheDecimator : Prop :=
  ∀ (s : State) (rsv : BitVec 16) (r : Byte),
    exec (.dsConfig rsv r) s =
      .next (if rsv = 0 ∧ r.toNat ∈ [5, 10, 20, 50, 100] then
               { s with ratio := r, dsCfg := true, count := 0, ready := false, sample := 0,
                        delay := List.replicate 16 (⟨0, 0⟩ : Delay), lastStatus := .ok }
             else { s with lastStatus := .badOperand })

/-- 40_filter_downsampler R80, R83: DS_UPDATE. The filter output `y` is that of FilterStep, stated of R78 on its own. -/
def Obligations.DsUpdateFeedsOneSample : Prop :=
  ∀ (s : State) (rsv : BitVec 24),
    (rsv ≠ 0 → exec (.dsUpdate rsv) s = .next { s with lastStatus := .badOperand }) ∧
    (rsv = 0 → s.dsCfg = false → exec (.dsUpdate rsv) s = .next { s with lastStatus := .badState }) ∧
    (rsv = 0 → s.dsCfg = true →
      exec (.dsUpdate rsv) s =
        .next (if s.count.toNat + 1 = s.ratio.toNat then
                 { s with delay := (filterStep s.arg s).1, ready := true, sample := (filterStep s.arg s).2, count := 0,
                          result := (filterStep s.arg s).2, lastStatus := .ok }
               else
                 { s with delay := (filterStep s.arg s).1, count := s.count + 1,
                          result := (filterStep s.arg s).2, lastStatus := .ok }))

/-- 40_filter_downsampler R78, R79: FilterStep with the set `COEF(RATIO)` (10_state R33), section by section in the rule's own
grouping. -/
def Obligations.FilterStepFollowsTheCascade : Prop :=
  ∀ (s : State) (x : Word),
    (∀ c, (s.ratio.toNat, c) ∈ coefTable s.params → s.coef = c) ∧
    (s.coef.sections.length ≤ s.delay.length →
      (filterStep x s).2 = running s.coef.sections s.delay (mul32 s.coef.gain x) s.coef.sections.length ∧
      (filterStep x s).1.length = s.delay.length ∧
      (∀ k c d, s.coef.sections[k]? = some c → s.delay[k]? = some d →
        (filterStep x s).1[k]? =
          some (⟨sectionW c d (running s.coef.sections s.delay (mul32 s.coef.gain x) k), d.z0⟩ : Delay)) ∧
      (∀ k, s.coef.sections.length ≤ k → (filterStep x s).1[k]? = s.delay[k]?))

/-- 40_filter_downsampler R81, R84: DS_GET returns the held sample and clears READY, whether or not it was 1. -/
def Obligations.DsGetReadsTheSampleOnce : Prop :=
  ∀ (s : State) (rsv : BitVec 24),
    exec (.dsGet rsv) s =
      .next (if rsv ≠ 0 then { s with lastStatus := .badOperand }
             else if s.dsCfg = false then { s with lastStatus := .badState }
             else { s with result := s.sample, ready := false, lastStatus := .ok })

/-- 42_compressor R124, R125: CMP_ENCODE and CMP_ENCODE_F, in every state. The code is stated of R126 and R127 on its own, `Q16`
of R123. -/
def Obligations.CompressorCommandsWriteTheCode : Prop :=
  ∀ s : State,
    (∀ (rsv : BitVec 8) (x : Half),
      exec (.cmpEncode rsv x) s =
        .next (if rsv = 0 then { s with result := BitVec.ofNat 32 (encodeSample x).toNat, lastStatus := .ok }
               else { s with lastStatus := .badOperand })) ∧
    (∀ rsv : BitVec 24,
      exec (.cmpEncodeF rsv) s =
        .next (if rsv = 0 then { s with result := BitVec.ofNat 32 (encodeSample (q16 s.arg)).toNat, lastStatus := .ok }
               else { s with lastStatus := .badOperand }))

/-- 43_ring R136: RING_RESET, in every state; the ring storage stays. -/
def Obligations.RingResetEmptiesTheRing : Prop :=
  ∀ (s : State) (rsv : BitVec 24),
    exec (.ringReset rsv) s =
      .next (if rsv = 0 then { s with fill := 0, drain := 0, pos := 0, ovfCount := 0, ovfLatch := false, lastStatus := .ok }
             else { s with lastStatus := .badOperand })

/-- 43_ring R133, R134, R137: RING_APPEND stores its byte at slot `FILL`, byte `POS`, and advances `FILL` when the slot is full,
counting an overflow event; every other byte and element stays. -/
def Obligations.RingAppendStoresAndAdvances : Prop :=
  ∀ (s : State) (rsv : BitVec 16) (b : Byte),
    (rsv ≠ 0 → exec (.ringAppend rsv b) s = .next { s with lastStatus := .badOperand }) ∧
    (rsv = 0 → s.Inv →
      ∃ t, exec (.ringAppend rsv b) s = .next t ∧
        t.ringMem.read (0x2000 + s.fill.toNat * s.params.slotSize + s.pos.toNat) = some b ∧
        (∀ a, a ≠ 0x2000 + s.fill.toNat * s.params.slotSize + s.pos.toNat → t.ringMem.read a = s.ringMem.read a) ∧
        t =
          if s.pos.toNat + 1 = s.params.slotSize then
            { s with ringMem := t.ringMem, pos := 0, fill := BitVec.ofNat 8 ((s.fill.toNat + 1) % s.params.ringN),
                     ovfLatch := decide ((s.fill.toNat + 1) % s.params.ringN = s.drain.toNat),
                     ovfCount := if (s.fill.toNat + 1) % s.params.ringN = s.drain.toNat ∧ s.ovfLatch = false then
                                   BitVec.ofNat 32 (min (s.ovfCount.toNat + 1) (2 ^ 32 - 1)) else s.ovfCount,
                     lastStatus := .ok }
          else { s with ringMem := t.ringMem, pos := s.pos + 1, lastStatus := .ok })

/-- 43_ring R138: RING_DRAIN advances DRAIN when a slot is pending and is BAD_STATE otherwise. -/
def Obligations.RingDrainAdvancesDrain : Prop :=
  ∀ (s : State) (rsv : BitVec 24),
    exec (.ringDrain rsv) s =
      .next (if rsv ≠ 0 then { s with lastStatus := .badOperand }
             else if s.fill = s.drain then { s with lastStatus := .badState }
             else { s with drain := BitVec.ofNat 8 ((s.drain.toNat + 1) % s.params.ringN), lastStatus := .ok })

/-- 44_pipeline_control R147; 70_reset_and_hazards R181: PIPE_HALF runs the loop of R147 when both units are configured and the
half is valid. A reserved bit, then an unconfigured unit, then a half that is not valid come first. -/
def Obligations.PipeHalfRunsTheLoop : Prop :=
  ∀ (s : State) (rsv : BitVec 23) (h : BitVec 1),
    (rsv = 0 → s.capCfg = true → s.dsCfg = true → (if h = 0 then s.halfValid0 else s.halfValid1) = true →
      exec (.pipeHalf rsv h) s =
        .next { (halfLoop h.toNat s).1 with result := BitVec.ofNat 32 (halfLoop h.toNat s).2, lastStatus := .ok }) ∧
    (rsv ≠ 0 → exec (.pipeHalf rsv h) s = .next { s with lastStatus := .badOperand }) ∧
    (rsv = 0 → (s.capCfg = false ∨ s.dsCfg = false) → exec (.pipeHalf rsv h) s = .next { s with lastStatus := .badState }) ∧
    (rsv = 0 → s.capCfg = true → s.dsCfg = true → (if h = 0 then s.halfValid0 else s.halfValid1) = false →
      exec (.pipeHalf rsv h) s = .fault .captureHazard)

/-- 44_pipeline_control R147; 10_state R22: the frame of PIPE_HALF. It leaves READY 0, and every byte of ring storage but those
of the codes it appended. `draws` is the model's own (log 6). -/
def Obligations.PipeHalfLeavesTheRestUnchanged : Prop :=
  ∀ (s t : State) (h : BitVec 1), s.Inv → s.capCfg = true → s.dsCfg = true → (if h = 0 then s.halfValid0 else s.halfValid1) = true →
    exec (.pipeHalf 0 h) s = .next t →
    t.ready = false ∧ t.lastStatus = .ok ∧
    t = { s with result := t.result, lastStatus := t.lastStatus, delay := t.delay, count := t.count, ready := t.ready,
                 sample := t.sample, fill := t.fill, pos := t.pos, ovfCount := t.ovfCount, ovfLatch := t.ovfLatch,
                 ringMem := t.ringMem, draws := t.draws } ∧
    (∀ a, a ∉ appendAddrs s.params t.result.toNat s.fill s.pos → t.ringMem.read a = s.ringMem.read a)

/-- 44_pipeline_control R147: how many codes PIPE_HALF appends. -/
def Obligations.PipeHalfYield : Prop :=
  ∀ (s t : State) (h : BitVec 1), s.Inv → s.capCfg = true → s.dsCfg = true → (if h = 0 then s.halfValid0 else s.halfValid1) = true →
    exec (.pipeHalf 0 h) s = .next t →
    t.result.toNat = (s.count.toNat + s.len.toNat / 4) / s.ratio.toNat +
      (if s.ready = true ∧ s.count.toNat < s.ratio.toNat - 1 then 1 else 0)

/-- 10_state R38; 70_reset_and_hazards R181: on sound states PIPE_HALF of a valid half reads only that half's cells, all of them
written: what it leaves, but for the model's draw counter (log 6), depends neither on the free values of unwritten storage (it is
the same from every draw number `n`) nor on any other cell (it is the same with any capture storage `m` that agrees on the
half). -/
def Obligations.PipeHalfReadsOnlyWrittenCells : Prop :=
  ∀ (s t : State) (h : BitVec 1) (n : Nat) (m : Memory), s.Inv → s.CapturedInv →
    (if h = 0 then s.halfValid0 else s.halfValid1) = true →
    (∀ i, i < s.len.toNat / 2 →
      m.read (cellAddr (h.toNat * (s.len.toNat / 2) + i)) = s.capMem.read (cellAddr (h.toNat * (s.len.toNat / 2) + i)) ∧
      m.read (cellAddr (h.toNat * (s.len.toNat / 2) + i) + 1) = s.capMem.read (cellAddr (h.toNat * (s.len.toNat / 2) + i) + 1)) →
    exec (.pipeHalf 0 h) s = .next t →
    ∃ d, exec (.pipeHalf 0 h) { s with draws := n, capMem := m } = .next { t with draws := d, capMem := m }

/-! ## Rules of the whole machine -/

/-- 60_exceptions R159: a command that ends with a non-OK status changes LAST_STATUS and nothing else. -/
def Obligations.FailedCommandChangesOnlyLastStatus : Prop :=
  ∀ (i : Instr) (s t : State), exec i s = .next t → t.lastStatus ≠ .ok → t = { s with lastStatus := t.lastStatus }

/-- 30_encoding R63: for every command, a reserved bit that is 1 ends it with BAD_OPERAND before anything else. -/
def Obligations.ReservedImmBitsAreBadOperand : Prop :=
  ∀ (i : Instr) (s : State), i.wellFormed = false → exec i s = .next { s with lastStatus := .badOperand }

/-- 60_exceptions R157, R158: the one status every command word ends with, by the first of its causes. -/
def Obligations.StatusOfEachCommand : Prop :=
  ∀ (w : Word) (s t : State), issue w s = .next t → t.lastStatus = statusOf w s

/-- 10_state R23, R24: no command writes ARG; only five write RESULT, and only when they end OK. -/
def Obligations.ArgAndResultHaveTheirWriters : Prop :=
  ∀ (i : Instr) (s t : State), exec i s = .next t →
    t.arg = s.arg ∧
    (t.result ≠ s.result → t.lastStatus = .ok ∧
      ((∃ r, i = .dsUpdate r) ∨ (∃ r, i = .dsGet r) ∨ (∃ r x, i = .cmpEncode r x) ∨ (∃ r, i = .cmpEncodeF r) ∨
        (∃ r h, i = .pipeHalf r h)))

/-- 10_state R22, R26, R27, R28, R30, R31, R34, R35: the writers of every element among the commands; in particular no command sets
HT or TC, or writes a capture cell. -/
def Obligations.ElementsHaveTheirWriters : Prop :=
  ∀ (i : Instr) (s t : State), exec i s = .next t →
    (t.capMem = s.capMem ∧ (t.ht = true → s.ht = true) ∧ (t.tc = true → s.tc = true)) ∧
    ((t.capCfg ≠ s.capCfg ∨ t.channel ≠ s.channel ∨ t.len ≠ s.len) → ∃ r c, i = .capConfig r c) ∧
    (t.rate ≠ s.rate → ∃ r, i = .capStart r) ∧
    (t.run ≠ s.run → (∃ r, i = .capStart r) ∨ (∃ r, i = .capStop r)) ∧
    ((t.ht ≠ s.ht ∨ t.tc ≠ s.tc) → (∃ r m, i = .capClear r m) ∨ (∃ r, i = .capStart r) ∨ (∃ r c, i = .capConfig r c)) ∧
    ((t.widx ≠ s.widx ∨ t.halfValid0 ≠ s.halfValid0 ∨ t.halfValid1 ≠ s.halfValid1) →
      (∃ r, i = .capStart r) ∨ (∃ r c, i = .capConfig r c)) ∧
    ((t.dsCfg ≠ s.dsCfg ∨ t.ratio ≠ s.ratio) → ∃ r q, i = .dsConfig r q) ∧
    ((t.count ≠ s.count ∨ t.sample ≠ s.sample ∨ t.delay ≠ s.delay) →
      (∃ r q, i = .dsConfig r q) ∨ (∃ r, i = .dsUpdate r) ∨ (∃ r h, i = .pipeHalf r h)) ∧
    (t.ready ≠ s.ready →
      (∃ r q, i = .dsConfig r q) ∨ (∃ r, i = .dsUpdate r) ∨ (∃ r, i = .dsGet r) ∨ (∃ r h, i = .pipeHalf r h)) ∧
    (t.drain ≠ s.drain → (∃ r, i = .ringDrain r) ∨ (∃ r, i = .ringReset r)) ∧
    (t.ringMem ≠ s.ringMem → (∃ r b, i = .ringAppend r b) ∨ (∃ r h, i = .pipeHalf r h)) ∧
    ((t.fill ≠ s.fill ∨ t.pos ≠ s.pos ∨ t.ovfCount ≠ s.ovfCount ∨ t.ovfLatch ≠ s.ovfLatch) →
      (∃ r b, i = .ringAppend r b) ∨ (∃ r h, i = .pipeHalf r h) ∨ (∃ r, i = .ringReset r))

/-- 10_state R33; 43_ring R130: no event changes the build parameters. -/
def Obligations.StepKeepsTheBuildParameters : Prop :=
  ∀ s t : State, step s = .next t → t.params = s.params

/-! ## The engine -/

/-- 41_capture R105: a tick while RUN = 1: the two cells it writes, WIDX, HT, TC, HALF_VALID, and nothing else. -/
def Obligations.TickWritesOnePair : Prop :=
  ∀ (s : State) (a b : Code) (rest : List Event), s.Inv → s.run = true → s.schedule = .tick a b :: rest →
    ∃ t, step s = .next t ∧
      t.capCell s.widx.toNat = some (BitVec.ofNat 16 a.toNat) ∧ t.capCell (s.widx.toNat + 1) = some (BitVec.ofNat 16 b.toNat) ∧
      (∀ x, (x < 0x1000 + 2 * s.widx.toNat ∨ 0x1000 + 2 * s.widx.toNat + 4 ≤ x) → t.capMem.read x = s.capMem.read x) ∧
      t = { s with
        schedule := rest, capMem := t.capMem,
        widx := if s.widx.toNat + 2 = s.len.toNat then 0 else s.widx + 2,
        ht := if s.widx.toNat + 2 = s.len.toNat / 2 then true else s.ht,
        tc := if s.widx.toNat + 2 = s.len.toNat then true else s.tc,
        halfValid0 := if s.widx.toNat + 2 = s.len.toNat / 2 then true
                      else if s.widx.toNat < s.len.toNat / 2 then false else s.halfValid0,
        halfValid1 := if s.widx.toNat + 2 = s.len.toNat then true
                      else if s.widx.toNat < s.len.toNat / 2 then s.halfValid1 else false }

/-- 41_capture R103, R106, R107: no tick happens while RUN = 0, and while RUN = 1 the engine ticks by itself, with some two
codes, once no event is scheduled. That a tick scheduled while RUN = 0 is passed over, and that the engine goes on by itself, are
the model's own choices (log 3, 4). -/
def Obligations.EngineTicksExactlyWhileRunning : Prop :=
  ∀ s : State,
    (s.run = false → ∀ a b rest, step { s with schedule := .tick a b :: rest } = .next { s with schedule := rest }) ∧
    (s.run = false → s.schedule = [] → step s = .next s) ∧
    (s.run = true → s.schedule = [] → ∃ a b, step s = step { s with schedule := [.tick a b], draws := s.draws + 2 })

/-- 41_capture R108: counting from CAP_START with `LEN = L`, tick `n+1` writes cells `2n mod L` and the next; it sets HT exactly
when `(n+1) mod (L/2) = L/4`, TC exactly when `(n+1) mod (L/2) = 0`. -/
def Obligations.TickNumberDecidesCellsAndFlags : Prop :=
  ∀ (s u : State) (draws : List (Code × Code)) (a b : Code), s.Inv → exec (.capStart 0) s = .next u → u.lastStatus = .ok →
    (ticks draws u).widx.toNat = 2 * draws.length % s.len.toNat ∧
    (tick a b (ticks draws u)).capCell (2 * draws.length % s.len.toNat) = some (BitVec.ofNat 16 a.toNat) ∧
    (tick a b (ticks draws u)).capCell (2 * draws.length % s.len.toNat + 1) = some (BitVec.ofNat 16 b.toNat) ∧
    (tick a b (ticks draws u)).ht =
      ((ticks draws u).ht || decide ((draws.length + 1) % (s.len.toNat / 2) = s.len.toNat / 4)) ∧
    (tick a b (ticks draws u)).tc =
      ((ticks draws u).tc || decide ((draws.length + 1) % (s.len.toNat / 2) = 0))

/-! ## Invariants -/

/-- 10_state R37: the invariants hold after every event. -/
def Obligations.StepKeepsTheInvariant : Prop :=
  ∀ s t : State, s.Inv → step s = .next t → t.Inv

/-- 10_state R22, R37: the invariants hold at reset, whatever the legal build parameters. -/
def Obligations.InvariantsHoldAtReset : Prop :=
  (∀ p : Params, p.Wf → (State.resetWith p).Inv ∧ (State.resetWith p).StorageInv ∧ (State.resetWith p).CapturedInv ∧
    (State.resetWith p).CodesInv) ∧
  State.reset.Inv ∧ State.reset.StorageInv ∧ State.reset.CapturedInv ∧ State.reset.CodesInv

/-- 10_state R30; 20_memory R40, R46, R47: both storage arrays keep their canonical form and their address ranges, and a capture
cell holds a code in bits 11:0 and 0 above. -/
def Obligations.StepKeepsTheStorageForm : Prop :=
  ∀ s t : State, step s = .next t →
    (s.Inv → s.StorageInv → t.StorageInv) ∧ (s.CodesInv → t.CodesInv) ∧
    (s.capMem.wf → t.capMem.wf) ∧ (s.ringMem.wf → t.ringMem.wf)

/-- 10_state R38; 20_memory R56: a half that HALF_VALID calls valid is completely written, in every state a step reaches. -/
def Obligations.StepKeepsValidHalvesWritten : Prop :=
  ∀ s t : State, s.Inv → s.CapturedInv → step s = .next t → t.CapturedInv

/-! ## Reset -/

/-- 10_state R22; 70_reset_and_hazards R175: the reset values, and that STATUS reads 0. -/
def Obligations.ResetLeavesTheResetValues : Prop :=
  ∀ s : State, (s = State.reset ∨ ∃ u rest, u.schedule = .reset :: rest ∧ step u = .next s) →
    s.arg = 0 ∧ s.result = 0 ∧ s.lastStatus = .ok ∧
    s.capCfg = false ∧ s.channel = 0 ∧ s.len = 0 ∧ s.rate = 0 ∧ s.run = false ∧ s.widx = 0 ∧ s.ht = false ∧ s.tc = false ∧
    s.dsCfg = false ∧ s.ratio = 0 ∧ s.count = 0 ∧ s.ready = false ∧ s.sample = 0 ∧ s.delay = List.replicate 16 (⟨0, 0⟩ : Delay) ∧
    s.fill = 0 ∧ s.drain = 0 ∧ s.pos = 0 ∧ s.ovfCount = 0 ∧ s.ovfLatch = false ∧
    s.halfValid0 = false ∧ s.halfValid1 = false ∧ (∀ a, s.capMem.read a = none ∧ s.ringMem.read a = none) ∧
    busWord s 0x000C = 0

/-! ## Arithmetic -/

/-- 40_filter_downsampler R76: sums and differences of finite operands, with the signs of exact zeros. The clauses for an infinite
operand are the model's reading of R76 by IEEE 754 (log 19). -/
def Obligations.SumsAreCorrectlyRounded : Prop :=
  (∀ a b : Word, finite a → finite b →
    (f32Int a + f32Int b ≠ 0 → correctlyRounded (f32Int a + f32Int b) 0 (add32 a b)) ∧
    (f32Int a + f32Int b = 0 → add32 a b = if f32Sign a = true ∧ f32Sign b = true then 0x80000000#32 else 0#32) ∧
    (f32Int a - f32Int b ≠ 0 → correctlyRounded (f32Int a - f32Int b) 0 (sub32 a b)) ∧
    (f32Int a - f32Int b = 0 → sub32 a b = if f32Sign a = true ∧ f32Sign b = false then 0x80000000#32 else 0#32)) ∧
  (∀ a b : Word, f32IsInf a = true → f32IsNaN b = false →
    ((f32IsInf b = true → f32Sign b = f32Sign a) → add32 a b = infinity (f32Sign a)) ∧
    ((f32IsInf b = true → f32Sign b ≠ f32Sign a) → sub32 a b = infinity (f32Sign a))) ∧
  (∀ a b : Word, finite a → f32IsInf b = true →
    add32 a b = infinity (f32Sign b) ∧ sub32 a b = infinity (!f32Sign b))

/-- 40_filter_downsampler R76: products of finite operands; a zero takes the exclusive-or of the signs. The clause for an infinite
operand is the model's reading of R76 by IEEE 754 (log 19). -/
def Obligations.ProductsAreCorrectlyRounded : Prop :=
  (∀ a b : Word, finite a → finite b →
    (f32Int a * f32Int b ≠ 0 → correctlyRounded (f32Int a * f32Int b) 149 (mul32 a b)) ∧
    (f32Int a * f32Int b = 0 → mul32 a b = if f32Sign a = f32Sign b then 0#32 else 0x80000000#32)) ∧
  (∀ a b : Word, f32IsNaN a = false → f32IsNaN b = false → (f32IsInf a = true ∨ f32IsInf b = true) →
    f32Int a ≠ 0 → f32Int b ≠ 0 → mul32 a b = infinity (decide (f32Sign a ≠ f32Sign b)))

/-- 40_filter_downsampler R77: a result is a NaN exactly in the cases of the rule, and then it is QNAN. -/
def Obligations.NanResultsAreQnan : Prop :=
  ∀ a b : Word,
    (add32 a b = 0x7FC00000#32 ↔
      (f32IsNaN a = true ∨ f32IsNaN b = true ∨ (f32IsInf a = true ∧ f32IsInf b = true ∧ f32Sign a ≠ f32Sign b))) ∧
    (sub32 a b = 0x7FC00000#32 ↔
      (f32IsNaN a = true ∨ f32IsNaN b = true ∨ (f32IsInf a = true ∧ f32IsInf b = true ∧ f32Sign a = f32Sign b))) ∧
    (mul32 a b = 0x7FC00000#32 ↔
      (f32IsNaN a = true ∨ f32IsNaN b = true ∨ (f32IsInf a = true ∧ finite b ∧ f32Int b = 0) ∨
        (f32IsInf b = true ∧ finite a ∧ f32Int a = 0))) ∧
    (∀ r, r = add32 a b ∨ r = sub32 a b ∨ r = mul32 a b → f32IsNaN r = true → r = 0x7FC00000#32)

/-- 44_pipeline_control R146: Norm is exact for every pair of cells, +0.0 for a pair summing to H, and within -1 .. 1 - 2/H for
codes. One unit of `f32Int` is `2^-149`. -/
def Obligations.NormIsExact : Prop :=
  ∀ a b : Half, finite (norm a b) ∧ f32Int (norm a b) * 4096 = ((a.toNat : Int) + b.toNat - 4096) * 2 ^ 149 ∧
    (a.toNat + b.toNat = 4096 → norm a b = 0#32) ∧
    (a.toNat < 4096 → b.toNat < 4096 → -(2 ^ 149) ≤ f32Int (norm a b) ∧ f32Int (norm a b) * 2048 ≤ 2047 * 2 ^ 149)

/-- 42_compressor R123: Q16 truncates the exact product with 32767 toward zero and saturates. -/
def Obligations.Q16TruncatesAndSaturates : Prop :=
  ∀ y : Word,
    (f32IsNaN y = true → (q16 y).toInt = 0) ∧
    (f32IsInf y = true → (q16 y).toInt = if f32Sign y then -32768 else 32767) ∧
    (finite y → (q16 y).toInt = min 32767 (max (-32768) (Int.tdiv (f32Int y * 32767) (2 ^ 149))))

/-- 42_compressor R127: the exponent by intervals of the magnitude; R120: the code is negative exactly for a negative sample; R121:
the mantissa is the four bits below the highest 1 bit of the clipped and biased magnitude. -/
def Obligations.CodeExponentFollowsTheIntervals : Prop :=
  ∀ x : Half,
    ((encodeSample x).toInt < 0 ↔ x.toInt < 0) ∧
    ∀ e lo hi, (e, lo, hi) ∈ [(0, 0, 123), (1, 124, 379), (2, 380, 891), (3, 892, 1915), (4, 1916, 3963), (5, 3964, 8059),
      (6, 8060, 16251), (7, 16252, 32768)] →
      lo ≤ x.toInt.natAbs → x.toInt.natAbs ≤ hi →
        ((encodeSample x).extractLsb' 4 3).toNat = e ∧
        ((encodeSample x).extractLsb' 0 4).toNat = (min x.toInt.natAbs 32635 + 132) / 2 ^ (e + 3) % 16

/-- 42_compressor R126: sign, error bound, order, and that all 256 codes occur. -/
def Obligations.CompressorRoundTripProperties : Prop :=
  (∀ x : Half, x.toInt ≠ 0 → x.toInt ≠ -32768 → encodeSample (-x) = encodeSample x ^^^ 0x80#8) ∧
  encodeSample 0 = 0 ∧
  (∀ x : Half, x.toInt.natAbs ≤ 32635 →
    (decodeCode (encodeSample x) - x.toInt).natAbs ≤ 2 ^ (((encodeSample x).extractLsb' 4 3).toNat + 2)) ∧
  (∀ x : Half, 32635 < x.toInt.natAbs →
    decodeCode (encodeSample x) = (if x.toInt < 0 then -32124 else 32124) ∧
    (decodeCode (encodeSample x) - x.toInt).natAbs = x.toInt.natAbs - 32124) ∧
  (∀ x y : Half, x.toInt ≤ y.toInt → decodeCode (encodeSample x) ≤ decodeCode (encodeSample y)) ∧
  (∀ c : Byte, ∃ x : Half, encodeSample x = c)

/-! ## Runs of commands -/

/-- 40_filter_downsampler R86: the cadence without reads, and with a read after every update that leaves READY = 1. -/
def Obligations.DecimatorCadence : Prop :=
  ∀ (s u : State) (r : Byte) (xs : List Word) (x : Word), exec (.dsConfig 0 r) s = .next u → u.lastStatus = .ok →
    (xs.foldl feed u).count.toNat = xs.length % r.toNat ∧
    ((xs.foldl feed u).ready = true ↔ r.toNat ≤ xs.length) ∧
    ((feed (xs.foldl feedAndRead u) x).ready = true ↔ (xs.length + 1) % r.toNat = 0)

/-- 40_filter_downsampler R85: the RESULT sequence after DS_CONFIG depends only on the ratio, its coefficients and the inputs. -/
def Obligations.FilterOutputIsDeterminedByItsInputs : Prop :=
  ∀ (s s' u u' : State) (r : Byte) (xs : List Word),
    exec (.dsConfig 0 r) s = .next u → u.lastStatus = .ok → exec (.dsConfig 0 r) s' = .next u' →
    coefOf s.params r = coefOf s'.params r → feedResults u xs = feedResults u' xs

/-- 43_ring R140: overflow accounting from RING_RESET without drains, in whole RING_APPEND commands. -/
def Obligations.OverflowAccounting : Prop :=
  ∀ (s u : State) (bs : List Byte), s.params.Wf → exec (.ringReset 0) s = .next u →
    (bs.foldl append u).fill.toNat = bs.length / s.params.slotSize % s.params.ringN ∧
    (bs.foldl append u).pos.toNat = bs.length % s.params.slotSize ∧
    (bs.foldl append u).drain = 0 ∧
    (bs.foldl append u).ovfCount.toNat = min (bs.length / s.params.slotSize / s.params.ringN) (2 ^ 32 - 1) ∧
    ((bs.foldl append u).ovfLatch = true ↔
      1 ≤ bs.length / s.params.slotSize ∧ bs.length / s.params.slotSize % s.params.ringN = 0)

/-- 43_ring R133, R141: of the bytes appended since RING_RESET, each of the last `RING_N * SLOT_SIZE` still stands in the ring
storage, laid end to end. -/
def Obligations.RingHoldsTheLastBytes : Prop :=
  ∀ (s u : State) (bs : List Byte) (i : Nat) (b : Byte), s.params.Wf → exec (.ringReset 0) s = .next u →
    bs[i]? = some b → bs.length ≤ i + s.params.ringN * s.params.slotSize →
    (bs.foldl append u).ringMem.read (0x2000 + i % (s.params.ringN * s.params.slotSize)) = some b

/-- 43_ring R131, R135: slot DRAIN is pending exactly when FILL differs from DRAIN, at most `RING_N - 1` slots are pending, and
an advance made while the latch is 1 is never an overflow event. -/
def Obligations.LatchNeverSuppressesACount : Prop :=
  ∀ s : State, s.Inv →
    (s.pendingSlots = 0 ↔ s.fill = s.drain) ∧ s.pendingSlots ≤ s.params.ringN - 1 ∧
    (s.ovfLatch = true → overflowEvent s = false) ∧
    (overflowEvent s = true → s.ovfCount.toNat < 2 ^ 32 - 1 → (advanceCore s).ovfCount.toNat = s.ovfCount.toNat + 1)
end

