-- ==== Sys2Proof/Laws/Bits.lean ====
section
/-! SUPPORT. The bit-field arithmetic of the model as equations over natural numbers: concatenations, the opcode byte, the encoder
and the words the storage windows return. Every later fact about fields goes through them. -/

namespace Sys2Proof

/-- A concatenation as a number. -/
theorem append_toNat {m n : Nat} (x : BitVec m) (y : BitVec n) : (x ++ y).toNat = x.toNat * 2 ^ n + y.toNat := by
  rw [BitVec.toNat_append, ← Nat.shiftLeft_add_eq_or_of_lt y.isLt, Nat.shiftLeft_eq]

/-- A field as a number. -/
theorem extract_toNat {n : Nat} (w : BitVec n) (start len : Nat) :
    (w.extractLsb' start len).toNat = w.toNat / 2 ^ start % 2 ^ len := by
  rw [BitVec.extractLsb'_toNat, Nat.shiftRight_eq_div_pow]

/-- `OPC` as a number (30_encoding R60). -/
theorem opcOf_toNat (w : Word) : (opcOf w).toNat = w.toNat / 2 ^ 24 := by
  rw [opcOf, extract_toNat]
  have := w.isLt
  omega

/-- A command's word as a number: `OPC || IMM` (30_encoding R60). -/
theorem encode_toNat (i : Instr) : (encode i).toNat = i.opcode.toNat * 2 ^ 24 + i.imm.toNat :=
  append_toNat i.opcode i.imm

/-- The `OPC` byte of an encoded command is its opcode (30_encoding R64). -/
theorem opcOf_encode (i : Instr) : opcOf (encode i) = i.opcode := by
  apply BitVec.eq_of_toNat_eq
  rw [opcOf_toNat, encode_toNat]
  have := i.imm.isLt
  have := i.opcode.isLt
  omega

/-- A field of an encoded command that lies inside `IMM` is that field of `IMM` (30_encoding R60). -/
theorem extract_encode (i : Instr) (start len : Nat) (h : start + len ≤ 24) :
    (encode i).extractLsb' start len = i.imm.extractLsb' start len := by
  apply BitVec.eq_of_toNat_eq
  rw [extract_toNat, extract_toNat, encode_toNat]
  obtain ⟨k, hk⟩ : ∃ k, 24 = start + (len + k) := ⟨24 - (start + len), by omega⟩
  have h24 : (2 : Nat) ^ 24 = 2 ^ start * (2 ^ len * 2 ^ k) := by rw [← pow_add, ← pow_add, ← hk]
  rw [h24, show i.opcode.toNat * (2 ^ start * (2 ^ len * 2 ^ k)) = 2 ^ start * (2 ^ len * (i.opcode.toNat * 2 ^ k)) by ring,
    Nat.mul_add_div (by positivity), Nat.mul_add_mod]

namespace Machine

/-- A window word as a number, its bytes in little-endian order (20_memory R48). -/
theorem fetchWord_toNat (m : Memory) (a n : Nat) :
    (m.fetchWord a n).toNat =
      (m.fetch a n).toNat + 256 * (m.fetch (a + 1) (n + 1)).toNat + 65536 * (m.fetch (a + 2) (n + 2)).toNat +
        16777216 * (m.fetch (a + 3) (n + 3)).toNat := by
  have h1 := append_toNat (m.fetch (a + 3) (n + 3) ++ m.fetch (a + 2) (n + 2) ++ m.fetch (a + 1) (n + 1)) (m.fetch a n)
  have h2 := append_toNat (m.fetch (a + 3) (n + 3) ++ m.fetch (a + 2) (n + 2)) (m.fetch (a + 1) (n + 1))
  have h3 := append_toNat (m.fetch (a + 3) (n + 3)) (m.fetch (a + 2) (n + 2))
  refine Eq.trans h1 ?_
  rw [h2, h3]
  omega

/-- Byte `j` of a window word is the byte at `a + j`, drawn as number `n + j` where nothing wrote it (20_memory R48; 10_state
R39). -/
theorem fetchWord_byte (m : Memory) (a n : Nat) {j : Nat} (h : j < 4) :
    (m.fetchWord a n).extractLsb' (8 * j) 8 = m.fetch (a + j) (n + j) := by
  apply BitVec.eq_of_toNat_eq
  rw [extract_toNat, fetchWord_toNat]
  have := (m.fetch a n).isLt
  have := (m.fetch (a + 1) (n + 1)).isLt
  have := (m.fetch (a + 2) (n + 2)).isLt
  have := (m.fetch (a + 3) (n + 3)).isLt
  interval_cases j
  · simp only [Nat.mul_zero, Nat.add_zero, pow_zero, Nat.div_one]
    omega
  all_goals omega

end Machine

end Sys2Proof
end

