-- ==== Sys2Proof/Laws/Memory.lean ====
section
/-! SUPPORT. The laws of the storage lists: a read after a write, and that a write keeps the canonical form and adds one entry. -/

namespace Sys2Proof.Machine

open Sys2Proof

/-- A read of the written address gives the byte written. -/
@[simp] theorem memory_read_write_same (m : Memory) (a : Nat) (v : Byte) : (m.write a v).read a = some v := by
  induction m with
  | nil => simp [Memory.write, Memory.read]
  | cons e m ih =>
    obtain ⟨b, w⟩ := e
    simp only [Memory.write]
    split
    · simp [Memory.read]
    · split
      · simp [Memory.read]
      · rename_i _ hne
        simp [Memory.read, hne, ih]

/-- A read of any other address is not changed by a write. -/
theorem memory_read_write_other (m : Memory) {a x : Nat} (v : Byte) (h : x ≠ a) : (m.write a v).read x = m.read x := by
  induction m with
  | nil => simp [Memory.write, Memory.read, h]
  | cons e m ih =>
    obtain ⟨b, w⟩ := e
    simp only [Memory.write]
    split
    · simp [Memory.read, h]
    · split
      · rename_i _ hab
        subst hab
        simp [Memory.read, h]
      · simp [Memory.read, ih]

/-- A read after a write, in one equation. -/
theorem memory_read_write (m : Memory) (a x : Nat) (v : Byte) :
    (m.write a v).read x = if x = a then some v else m.read x := by
  split
  · rename_i h
    subst h
    exact memory_read_write_same m x v
  · rename_i h
    exact memory_read_write_other m v h

/-- Every entry of a written memory is the new one or an old one. -/
theorem memory_mem_write {m : Memory} {a : Nat} {v : Byte} {e : Host.Cell} (h : e ∈ m.write a v) : e = (a, v) ∨ e ∈ m := by
  induction m with
  | nil => simpa [Memory.write] using h
  | cons f m ih =>
    obtain ⟨b, w⟩ := f
    simp only [Memory.write] at h
    split at h
    · simpa using h
    · split at h
      · rcases List.mem_cons.1 h with h | h
        · exact .inl h
        · exact .inr (List.mem_cons_of_mem _ h)
      · rcases List.mem_cons.1 h with h | h
        · exact .inr (by simp [h])
        · exact (ih h).imp id (List.mem_cons_of_mem _)

/-- A write keeps the canonical form. -/
theorem memory_write_wf {m : Memory} (h : m.wf) (a : Nat) (v : Byte) : (m.write a v).wf := by
  induction m with
  | nil => simp [Memory.write, Memory.wf]
  | cons e m ih =>
    obtain ⟨b, w⟩ := e
    obtain ⟨hb, hm⟩ := List.pairwise_cons.1 h
    simp only [Memory.write]
    split
    · rename_i hab
      refine List.pairwise_cons.2 ⟨fun y hy => ?_, h⟩
      rcases List.mem_cons.1 hy with rfl | hy
      · exact hab
      · exact lt_trans hab (hb y hy)
    · split
      · rename_i _ hab
        subst hab
        exact List.pairwise_cons.2 ⟨hb, hm⟩
      · rename_i hlt hne
        refine List.pairwise_cons.2 ⟨fun y hy => ?_, ih hm⟩
        rcases memory_mem_write hy with rfl | hy
        · show b < a
          omega
        · exact hb y hy

/-- The empty storage is canonical. -/
theorem memory_nil_wf : Memory.wf [] := List.Pairwise.nil

/-- Two cell stores at once: a 16-bit store changes its two bytes and no other. -/
theorem memory_read_writeHalf (m : Memory) (a x : Nat) (v : Half) :
    (m.writeHalf a v).read x =
      if x = a + 1 then some (v.extractLsb' 8 8) else if x = a then some (v.extractLsb' 0 8) else m.read x := by
  simp only [Memory.writeHalf, memory_read_write]

/-- A 16-bit store keeps the canonical form. -/
theorem memory_writeHalf_wf {m : Memory} (h : m.wf) (a : Nat) (v : Half) : (m.writeHalf a v).wf :=
  memory_write_wf (memory_write_wf h _ _) _ _

/-- Every entry of a memory after a 16-bit store is one of its two bytes or an old one. -/
theorem memory_mem_writeHalf {m : Memory} {a : Nat} {v : Half} {e : Host.Cell} (h : e ∈ m.writeHalf a v) :
    e = (a + 1, v.extractLsb' 8 8) ∨ e = (a, v.extractLsb' 0 8) ∨ e ∈ m :=
  (memory_mem_write h).imp id memory_mem_write

/-- The storage form is kept by every operation over storage. -/
theorem memory_operations_keep_wf {m : Memory} (h : m.wf) (a : Nat) (v : Byte) (w : Half) :
    (m.write a v).wf ∧ (m.writeHalf a w).wf :=
  ⟨memory_write_wf h a v, memory_writeHalf_wf h a w⟩

/-- A fetch of a written byte returns it, whatever the draw. -/
theorem memory_fetch_written {m : Memory} {a : Nat} {v : Byte} (h : m.read a = some v) (n : Nat) : m.fetch a n = v := by
  simp [Memory.fetch, h]

/-- A fetch of an unwritten byte is the draw. -/
theorem memory_fetch_unwritten {m : Memory} {a : Nat} (h : m.read a = none) (n : Nat) :
    m.fetch a n = Config.freeByte n := by
  simp [Memory.fetch, h]

/-- Two storages that agree on four written bytes read as the same word there, whatever the draws. -/
theorem memory_fetchWord_written {m m' : Memory} {a : Nat} (h : ∀ j, j < 4 → m'.read (a + j) = m.read (a + j))
    (hw : ∀ j, j < 4 → (m.read (a + j)).isSome = true) (n n' : Nat) : m'.fetchWord a n' = m.fetchWord a n := by
  have byte : ∀ j, j < 4 → ∀ k k', m'.fetch (a + j) k' = m.fetch (a + j) k := by
    intro j hj k k'
    obtain ⟨v, hv⟩ := Option.isSome_iff_exists.1 (hw j hj)
    rw [memory_fetch_written hv, memory_fetch_written ((h j hj).trans hv)]
  unfold Memory.fetchWord
  rw [byte 3 (by omega) (n + 3), byte 2 (by omega) (n + 2), byte 1 (by omega) (n + 1), ← Nat.add_zero a, byte 0 (by omega) n]

end Sys2Proof.Machine
end

