-- ==== Sys2Proof/Laws/Operands.lean ====
section
/-! SUPPORT. The operand checks of 30_encoding R62 and the flag functions as equations over natural numbers. -/

namespace Sys2Proof.Machine

open Sys2Proof

/-- A legal channel (41_capture R100). -/
theorem channelLegal_iff {p : Params} {ch : Byte} : channelLegal p ch = true ↔ ch.toNat ≤ p.channelMax :=
  decide_eq_true_iff

/-- A legal length (41_capture R100). -/
theorem lengthLegal_iff {len : Word} : lengthLegal len = true ↔ 4 ≤ len.toNat ∧ len.toNat ≤ 2048 ∧ len.toNat % 4 = 0 :=
  decide_eq_true_iff

/-- A legal rate (41_capture R101). -/
theorem rateLegal_iff {p : Params} {rate : Word} : rateLegal p rate = true ↔ rate.toNat ≠ 0 ∧ rate.toNat ≤ p.rateMax :=
  decide_eq_true_iff

/-- A legal ratio is one of RATIOS (40_filter_downsampler R82). -/
theorem ratioLegal_iff {r : Byte} :
    ratioLegal r = true ↔ r.toNat = 5 ∨ r.toNat = 10 ∨ r.toNat = 20 ∨ r.toNat = 50 ∨ r.toNat = 100 := by
  revert r
  decide

/-- The next slot as a number, in a legal build (43_ring R134). -/
theorem nextSlot_toNat {p : Params} (h : p.ringN ≤ 255) (hp : 0 < p.ringN) (i : Byte) :
    (nextSlot p i).toNat = (i.toNat + 1) % p.ringN := by
  have := Nat.mod_lt (i.toNat + 1) hp
  rw [nextSlot, BitVec.toNat_ofNat, Nat.mod_eq_of_lt (by omega)]

/-- The half operand has two values (30_encoding R62). -/
theorem half_cases (h : BitVec 1) : h = 0 ∨ h = 1 := by
  revert h
  decide

/-- `HALF_VALID[h]` of an operand, as the two fields (10_state R38). -/
theorem halfValid_operand (s : State) (h : BitVec 1) :
    s.halfValid (halfOperand h) = if h = 0 then s.halfValid0 else s.halfValid1 := by
  rcases half_cases h with rfl | rfl <;> rfl

end Sys2Proof.Machine
end

