-- ==== Sys2Proof/Laws/Capture.lean ====
section
/-! SUPPORT. The engine tick (41_capture R105): the four bytes of the pair it stores, the cells it changes, and where WIDX goes. -/

namespace Sys2Proof.Machine

open Sys2Proof

/-- A cell is its two bytes (20_memory R48). -/
theorem half_append (v : Half) : v.extractLsb' 8 8 ++ v.extractLsb' 0 8 = v := by
  apply BitVec.eq_of_toNat_eq
  erw [append_toNat]
  simp only [extract_toNat]
  have := v.isLt
  omega

/-- The next cell is two bytes on (20_memory R46). -/
theorem cellAddr_succ (i : Nat) : cellAddr (i + 1) = cellAddr i + 2 := by
  unfold cellAddr
  omega

/-- A cell before or after a pair has no byte of it. -/
theorem cellAddr_apart {i k : Nat} (h : i + 1 ≤ k ∨ k + 2 ≤ i) :
    cellAddr i + 1 < cellAddr k ∨ cellAddr k + 4 ≤ cellAddr i := by
  unfold cellAddr
  omega

/-- Every byte after the store of a pair: its four bytes, and the old ones. -/
theorem storePair_read (m : Memory) (i : Nat) (a b : Code) (x : Nat) :
    (storePair m i a b).read x =
      if x = cellAddr i then some ((a.setWidth 16).extractLsb' 0 8)
      else if x = cellAddr i + 1 then some ((a.setWidth 16).extractLsb' 8 8)
      else if x = cellAddr i + 2 then some ((b.setWidth 16).extractLsb' 0 8)
      else if x = cellAddr i + 3 then some ((b.setWidth 16).extractLsb' 8 8)
      else m.read x := by
  rw [storePair, memory_read_writeHalf, memory_read_writeHalf, cellAddr_succ]
  split_ifs <;> first | rfl | (exfalso; omega)

/-- No byte outside the pair changes. -/
theorem storePair_read_outside (m : Memory) {i x : Nat} (a b : Code) (h : x < cellAddr i ∨ cellAddr i + 4 ≤ x) :
    (storePair m i a b).read x = m.read x := by
  rw [storePair_read]
  split_ifs <;> first | rfl | (exfalso; omega)

/-- Every entry after the store of a pair is one of its four bytes or an old one. -/
theorem storePair_mem {m : Memory} {i : Nat} {a b : Code} {e : Host.Cell} (h : e ∈ storePair m i a b) :
    e = (cellAddr i, (a.setWidth 16).extractLsb' 0 8) ∨ e = (cellAddr i + 1, (a.setWidth 16).extractLsb' 8 8) ∨
    e = (cellAddr i + 2, (b.setWidth 16).extractLsb' 0 8) ∨ e = (cellAddr i + 3, (b.setWidth 16).extractLsb' 8 8) ∨ e ∈ m := by
  rcases memory_mem_writeHalf h with h | h | h
  · rw [cellAddr_succ] at h
    simp [h]
  · rw [cellAddr_succ] at h
    simp [h]
  · rcases memory_mem_writeHalf h with h | h | h <;> simp [h]

/-- The store of a pair keeps the canonical form. -/
theorem storePair_wf {m : Memory} (h : m.wf) (i : Nat) (a b : Code) : (storePair m i a b).wf :=
  memory_writeHalf_wf (memory_writeHalf_wf h _ _) _ _

/-- The high byte of a stored code is below 16 (10_state R30). -/
theorem code_high_lt (c : Code) : ((c.setWidth 16).extractLsb' 8 8).toNat < 16 := by
  rw [extract_toNat, BitVec.toNat_setWidth]
  have := c.isLt
  omega

/-- The two cells of a stored pair. -/
theorem storePair_cells (m : Memory) (i : Nat) (a b : Code) :
    ((storePair m i a b).read (cellAddr i) = some ((a.setWidth 16).extractLsb' 0 8) ∧
      (storePair m i a b).read (cellAddr i + 1) = some ((a.setWidth 16).extractLsb' 8 8)) ∧
    (storePair m i a b).read (cellAddr (i + 1)) = some ((b.setWidth 16).extractLsb' 0 8) ∧
      (storePair m i a b).read (cellAddr (i + 1) + 1) = some ((b.setWidth 16).extractLsb' 8 8) := by
  simp [storePair_read, cellAddr_succ, Nat.add_assoc]

/-- The cells after a tick: the two codes at WIDX, and the old cells elsewhere. -/
theorem tick_capCell (a b : Code) (s : State) (i : Nat) :
    (tick a b s).capCell i =
      if i = s.widx.toNat then some (a.setWidth 16) else if i = s.widx.toNat + 1 then some (b.setWidth 16) else s.capCell i := by
  have cells := storePair_cells s.capMem s.widx.toNat a b
  have hm : (tick a b s).capMem = storePair s.capMem s.widx.toNat a b := rfl
  split_ifs with h0 h1
  · simp only [State.capCell, hm, h0, cells.1, half_append]
  · simp only [State.capCell, hm, h1, cells.2, half_append]
  · have hi := cellAddr_apart (show i + 1 ≤ s.widx.toNat ∨ s.widx.toNat + 2 ≤ i by omega)
    have lo := storePair_read_outside s.capMem (i := s.widx.toNat) (x := cellAddr i) a b (by omega)
    have hi := storePair_read_outside s.capMem (i := s.widx.toNat) (x := cellAddr i + 1) a b (by omega)
    simp only [State.capCell, hm, lo, hi]

/-- WIDX after a tick of a running engine, as a number: two on, modulo LEN. -/
theorem tick_widx_toNat (a b : Code) {s : State} (hl : lengthLegal s.len = true) (he : s.widx.toNat % 2 = 0)
    (hw : s.widx.toNat < s.len.toNat) : (tick a b s).widx.toNat = (s.widx.toNat + 2) % s.len.toNat := by
  have := lengthLegal_iff.1 hl
  simp only [tick]
  split
  · rename_i h
    simp only [decide_eq_true_eq] at h
    rw [h]
    simp
  · rename_i h
    simp only [decide_eq_true_eq] at h
    rw [BitVec.toNat_ofNat, Nat.mod_eq_of_lt (by omega), Nat.mod_eq_of_lt (by omega)]

end Sys2Proof.Machine
end

