-- ==== Sys2Proof/Laws/Commands.lean ====
section
/-! SUPPORT. What executing a command can do, said once for all commands: it ends with BAD_OPERAND, with BAD_STATE, with its effect
and OK, or (PIPE_HALF only) with the hazard fault. -/

namespace Sys2Proof.Machine

open Sys2Proof

/-- The state in which a command that completes ends, from the rule of each command. -/
def okState : Instr → State → State
  | .nop _, s => s.complete
  | .capConfig _ ch, s =>
    State.complete { s with
      channel := ch, len := s.arg, capCfg := true, widx := 0, ht := false, tc := false, halfValid0 := false, halfValid1 := false }
  | .capStart _, s =>
    State.complete { s with
      rate := s.arg, widx := 0, ht := false, tc := false, halfValid0 := false, halfValid1 := false, run := true }
  | .capStop _, s => State.complete { s with run := false }
  | .capClear _ mask, s =>
    State.complete { s with
      ht := if maskNamesHt mask then false else s.ht, tc := if maskNamesTc mask then false else s.tc }
  | .dsConfig _ r, s =>
    State.complete { s with
      ratio := r, dsCfg := true, count := 0, ready := false, sample := 0, delay := List.replicate Config.nsecMax ⟨0, 0⟩ }
  | .dsUpdate _, s => (dsUpdateCore s.arg s).completeWith (filterStep s.arg s).2
  | .dsGet _, s => (dsGetCore s).completeWith s.sample
  | .cmpEncode _ s16, s => s.completeWith ((encodeSample s16).setWidth 32)
  | .cmpEncodeF _, s => s.completeWith ((encodeSample (q16 s.arg)).setWidth 32)
  | .ringReset _, s => State.complete { s with fill := 0, drain := 0, pos := 0, ovfCount := 0, ovfLatch := false }
  | .ringAppend _ byte, s => (appendCore byte s).complete
  | .ringDrain _, s => State.complete { s with drain := nextSlot s.params s.drain }
  | .pipeHalf _ h, s => (pipeHalf h.toNat s).1.completeWith (BitVec.ofNat 32 (pipeHalf h.toNat s).2)

/-- The operand values of a command are legal: no BAD_OPERAND but for a reserved bit (60_exceptions R157). -/
def OperandsLegal : Instr → State → Prop
  | .capConfig _ ch, s => channelLegal s.params ch = true ∧ lengthLegal s.arg = true
  | .capStart _, s => rateLegal s.params s.arg = true
  | .dsConfig _ r, _ => ratioLegal r = true
  | _, _ => True

/-- The block is in a state in which a command may run: no BAD_STATE (60_exceptions R157). -/
def StateReady : Instr → State → Prop
  | .capConfig _ _, s => s.run = false
  | .capStart _, s => s.capCfg = true ∧ s.run = false
  | .dsUpdate _, s => s.dsCfg = true
  | .dsGet _, s => s.dsCfg = true
  | .ringDrain _, s => s.fill ≠ s.drain
  | .pipeHalf _ _, s => s.capCfg = true ∧ s.dsCfg = true
  | _, _ => True

/-- A command stops with the hazard fault when it is PIPE_HALF of a half that is not valid (70_reset_and_hazards R181). -/
def NoHazard : Instr → State → Prop
  | .pipeHalf _ h, s => (if h = 0 then s.halfValid0 else s.halfValid1) = true
  | _, _ => True

/-- A command with a reserved bit set ends with BAD_OPERAND (30_encoding R63). -/
theorem exec_reserved {i : Instr} {s : State} (h : i.wellFormed = false) : exec i s = .next (s.raise .badOperand) := by
  cases i <;> simp only [Instr.wellFormed, beq_eq_false_iff_ne] at h <;>
    first
      | exact congrArg Host.Outcome.next (if_pos h)
      | exact if_pos h

/-- An operand value outside its range ends with BAD_OPERAND (60_exceptions R158). -/
theorem exec_badOperand {i : Instr} {s : State} (hw : i.wellFormed = true) (h : ¬ OperandsLegal i s) :
    exec i s = .next (s.raise .badOperand) := by
  cases i <;> simp only [Instr.wellFormed, beq_iff_eq] at hw <;> subst hw <;> try exact absurd trivial h
  case capConfig ch =>
    simp only [OperandsLegal, not_and, Bool.not_eq_true] at h
    cases hc : channelLegal s.params ch <;> simp [exec, execCapConfig, lenOperand, hc, h]
  case capStart =>
    simp only [OperandsLegal, Bool.not_eq_true] at h
    simp [exec, execCapStart, rateOperand, h]
  case dsConfig r =>
    simp only [OperandsLegal, Bool.not_eq_true] at h
    simp [exec, execDsConfig, h]

/-- A command whose operands are legal but whose state is not ready ends with BAD_STATE (60_exceptions R158). -/
theorem exec_badState {i : Instr} {s : State} (hw : i.wellFormed = true) (ho : OperandsLegal i s) (h : ¬ StateReady i s) :
    exec i s = .next (s.raise .badState) := by
  cases i <;> simp only [Instr.wellFormed, beq_iff_eq] at hw <;> subst hw <;> try exact absurd trivial h
  case capConfig ch =>
    simp only [OperandsLegal, StateReady, Bool.not_eq_false] at h ho
    simp [exec, execCapConfig, lenOperand, ho, h]
  case capStart =>
    simp only [OperandsLegal, StateReady] at h ho
    cases hc : s.capCfg <;> cases hr : s.run <;> simp_all [exec, execCapStart, rateOperand]
  case dsUpdate => simp_all [StateReady, exec, execDsUpdate]
  case dsGet => simp_all [StateReady, exec, execDsGet]
  case ringDrain => simp_all [StateReady, exec, execRingDrain, State.ringPending]
  case pipeHalf half =>
    simp only [StateReady] at h
    cases hc : s.capCfg <;> cases hd : s.dsCfg <;> simp_all [exec, execPipeHalf]

/-- PIPE_HALF of a half that is not valid is the hazard fault (70_reset_and_hazards R181). -/
theorem exec_hazard {i : Instr} {s : State} (hw : i.wellFormed = true) (hr : StateReady i s) (h : ¬ NoHazard i s) :
    exec i s = .fault .captureHazard := by
  cases i <;> simp only [Instr.wellFormed, beq_iff_eq] at hw <;> subst hw <;> try exact absurd trivial h
  case pipeHalf half =>
    simp only [NoHazard, StateReady, Bool.not_eq_true, ← halfValid_operand] at h hr
    simp [exec, execPipeHalf, hr, h]

/-- A command that nothing stops has its effect and ends OK (60_exceptions R159). -/
theorem exec_complete {i : Instr} {s : State} (hw : i.wellFormed = true) (ho : OperandsLegal i s) (hr : StateReady i s)
    (hh : NoHazard i s) : exec i s = .next (okState i s) := by
  cases i <;> simp only [Instr.wellFormed, beq_iff_eq] at hw <;> subst hw
  case pipeHalf half =>
    simp only [NoHazard, StateReady, ← halfValid_operand] at hh hr
    simp [exec, execPipeHalf, okState, hr, hh, halfOperand] at hh ⊢
  all_goals simp only [OperandsLegal, StateReady] at ho hr
  case capConfig ch => simp [exec, execCapConfig, okState, lenOperand, ho, hr]
  case capStart => simp [exec, execCapStart, okState, rateOperand, ho, hr]
  case dsConfig r => simp [exec, execDsConfig, okState, ho]
  case dsUpdate => simp [exec, execDsUpdate, okState, floatOperand, hr]
  case dsGet => simp [exec, execDsGet, okState, hr]
  case ringDrain => simp [exec, execRingDrain, okState, State.ringPending, hr]
  all_goals rfl

/-- Everything a command that answers a next state can have done. -/
theorem exec_next {i : Instr} {s t : State} (h : exec i s = .next t) :
    (t = s.raise .badOperand ∧ (i.wellFormed = false ∨ ¬ OperandsLegal i s)) ∨
    (t = s.raise .badState ∧ i.wellFormed = true ∧ OperandsLegal i s ∧ ¬ StateReady i s) ∨
    (t = okState i s ∧ i.wellFormed = true ∧ OperandsLegal i s ∧ StateReady i s ∧ NoHazard i s) := by
  cases hw : i.wellFormed
  · rw [exec_reserved hw] at h
    exact .inl ⟨by cases h; rfl, .inl rfl⟩
  by_cases ho : OperandsLegal i s
  swap
  · rw [exec_badOperand hw ho] at h
    exact .inl ⟨by cases h; rfl, .inr ho⟩
  by_cases hr : StateReady i s
  swap
  · rw [exec_badState hw ho hr] at h
    exact .inr (.inl ⟨by cases h; rfl, rfl, ho, hr⟩)
  by_cases hh : NoHazard i s
  · rw [exec_complete hw ho hr hh] at h
    exact .inr (.inr ⟨by cases h; rfl, rfl, ho, hr, hh⟩)
  · rw [exec_hazard hw hr hh] at h
    cases h

/-- A command that completes ends with status OK (60_exceptions R159). -/
@[simp] theorem okState_lastStatus (i : Instr) (s : State) : (okState i s).lastStatus = .ok := by
  cases i <;> rfl

end Sys2Proof.Machine
end

