-- ==== Sys2Proof/Laws/Compressor.lean ====
section
/-! SUPPORT. The compressor (42_compressor R121): the fields of a code as numbers, and where the biased magnitude lies. -/

namespace Sys2Proof.Machine

open Sys2Proof

/-- The biased magnitude lies between the bias and 2^15 - 1. -/
theorem biasedMagnitude_bounds (x : Int) : 132 ≤ biasedMagnitude x ∧ biasedMagnitude x ≤ 32767 := by
  unfold biasedMagnitude Config.cmpClip Config.cmpBias
  omega

/-- The exponent places the biased magnitude between two powers of two, and fits in three bits. -/
theorem codeExponent_bounds (x : Int) :
    2 ^ (codeExponent x + 7) ≤ biasedMagnitude x ∧ biasedMagnitude x < 2 ^ (codeExponent x + 8) ∧ codeExponent x < 8 := by
  obtain ⟨h1, h2⟩ := biasedMagnitude_bounds x
  have hlo := Nat.log2_self_le (show biasedMagnitude x ≠ 0 by omega)
  have hhi := Nat.lt_log2_self (n := biasedMagnitude x)
  have h7 : 7 ≤ Nat.log2 (biasedMagnitude x) := (Nat.le_log2 (by omega)).2 (by omega)
  have h15 : Nat.log2 (biasedMagnitude x) < 15 := (Nat.log2_lt (by omega)).2 (by omega)
  have e : codeExponent x + 7 = Nat.log2 (biasedMagnitude x) := by
    unfold codeExponent
    omega
  refine ⟨by rw [e]; exact hlo, ?_, by omega⟩
  rw [show codeExponent x + 8 = Nat.log2 (biasedMagnitude x) + 1 by omega]
  exact hhi

/-- The mantissa is the four bits below the highest 1 bit. -/
theorem codeMantissa_eq (x : Int) : biasedMagnitude x / 2 ^ (codeExponent x + 3) = 16 + codeMantissa x ∧ codeMantissa x < 16 := by
  obtain ⟨h1, h2, -⟩ := codeExponent_bounds x
  have hlo : 16 ≤ biasedMagnitude x / 2 ^ (codeExponent x + 3) :=
    (Nat.le_div_iff_mul_le (by positivity)).2 (le_trans (le_of_eq (by ring)) h1)
  have hhi : biasedMagnitude x / 2 ^ (codeExponent x + 3) < 32 :=
    Nat.div_lt_of_lt_mul (lt_of_lt_of_le h2 (le_of_eq (by ring)))
  unfold codeMantissa
  rw [Nat.shiftRight_eq_div_pow]
  omega

/-- A code as a number: sign, exponent, mantissa (R120). -/
theorem encodeSample_toNat (x : Half) :
    (encodeSample x).toNat = (if x.toInt < 0 then 128 else 0) + 16 * codeExponent x.toInt + codeMantissa x.toInt := by
  obtain ⟨-, -, h3⟩ := codeExponent_bounds x.toInt
  obtain ⟨-, h4⟩ := codeMantissa_eq x.toInt
  unfold encodeSample
  erw [append_toNat, append_toNat]
  rw [BitVec.toNat_ofNat, BitVec.toNat_ofNat, Nat.mod_eq_of_lt h3, Nat.mod_eq_of_lt h4]
  by_cases hx : x.toInt < 0 <;> simp [hx] <;> omega

/-- The exponent and the mantissa of a code (42_compressor R120). -/
theorem encodeSample_fields (x : Half) :
    ((encodeSample x).extractLsb' 4 3).toNat = codeExponent x.toInt ∧
    ((encodeSample x).extractLsb' 0 4).toNat = codeMantissa x.toInt := by
  have := encodeSample_toNat x
  have := (codeExponent_bounds x.toInt).2.2
  have := (codeMantissa_eq x.toInt).2
  rw [extract_toNat, extract_toNat]
  split at * <;> omega

end Sys2Proof.Machine
end

