-- ==== Sys2Proof/Laws/State.lean ====
section
/-! SUPPORT. One lemma per field per named update of State: what each update leaves of each field. Each is true by unfolding, so
that no later proof unfolds a record update. -/

namespace Sys2Proof.Machine

open Sys2Proof

/-! ## raise and complete (60_exceptions R159) -/

@[simp] theorem raise_params (c : Status) (s : State) : (s.raise c).params = s.params := rfl
@[simp] theorem raise_arg (c : Status) (s : State) : (s.raise c).arg = s.arg := rfl
@[simp] theorem raise_result (c : Status) (s : State) : (s.raise c).result = s.result := rfl
@[simp] theorem raise_capCfg (c : Status) (s : State) : (s.raise c).capCfg = s.capCfg := rfl
@[simp] theorem raise_channel (c : Status) (s : State) : (s.raise c).channel = s.channel := rfl
@[simp] theorem raise_len (c : Status) (s : State) : (s.raise c).len = s.len := rfl
@[simp] theorem raise_rate (c : Status) (s : State) : (s.raise c).rate = s.rate := rfl
@[simp] theorem raise_run (c : Status) (s : State) : (s.raise c).run = s.run := rfl
@[simp] theorem raise_widx (c : Status) (s : State) : (s.raise c).widx = s.widx := rfl
@[simp] theorem raise_ht (c : Status) (s : State) : (s.raise c).ht = s.ht := rfl
@[simp] theorem raise_tc (c : Status) (s : State) : (s.raise c).tc = s.tc := rfl
@[simp] theorem raise_capMem (c : Status) (s : State) : (s.raise c).capMem = s.capMem := rfl
@[simp] theorem raise_halfValid0 (c : Status) (s : State) : (s.raise c).halfValid0 = s.halfValid0 := rfl
@[simp] theorem raise_halfValid1 (c : Status) (s : State) : (s.raise c).halfValid1 = s.halfValid1 := rfl
@[simp] theorem raise_dsCfg (c : Status) (s : State) : (s.raise c).dsCfg = s.dsCfg := rfl
@[simp] theorem raise_ratio (c : Status) (s : State) : (s.raise c).ratio = s.ratio := rfl
@[simp] theorem raise_count (c : Status) (s : State) : (s.raise c).count = s.count := rfl
@[simp] theorem raise_ready (c : Status) (s : State) : (s.raise c).ready = s.ready := rfl
@[simp] theorem raise_sample (c : Status) (s : State) : (s.raise c).sample = s.sample := rfl
@[simp] theorem raise_delay (c : Status) (s : State) : (s.raise c).delay = s.delay := rfl
@[simp] theorem raise_fill (c : Status) (s : State) : (s.raise c).fill = s.fill := rfl
@[simp] theorem raise_drain (c : Status) (s : State) : (s.raise c).drain = s.drain := rfl
@[simp] theorem raise_pos (c : Status) (s : State) : (s.raise c).pos = s.pos := rfl
@[simp] theorem raise_ovfCount (c : Status) (s : State) : (s.raise c).ovfCount = s.ovfCount := rfl
@[simp] theorem raise_ovfLatch (c : Status) (s : State) : (s.raise c).ovfLatch = s.ovfLatch := rfl
@[simp] theorem raise_ringMem (c : Status) (s : State) : (s.raise c).ringMem = s.ringMem := rfl
@[simp] theorem raise_schedule (c : Status) (s : State) : (s.raise c).schedule = s.schedule := rfl
@[simp] theorem raise_readData (c : Status) (s : State) : (s.raise c).readData = s.readData := rfl
@[simp] theorem raise_draws (c : Status) (s : State) : (s.raise c).draws = s.draws := rfl
@[simp] theorem raise_lastStatus (c : Status) (s : State) : (s.raise c).lastStatus = c := rfl

@[simp] theorem complete_params (s : State) : s.complete.params = s.params := rfl
@[simp] theorem complete_arg (s : State) : s.complete.arg = s.arg := rfl
@[simp] theorem complete_result (s : State) : s.complete.result = s.result := rfl
@[simp] theorem complete_capCfg (s : State) : s.complete.capCfg = s.capCfg := rfl
@[simp] theorem complete_channel (s : State) : s.complete.channel = s.channel := rfl
@[simp] theorem complete_len (s : State) : s.complete.len = s.len := rfl
@[simp] theorem complete_rate (s : State) : s.complete.rate = s.rate := rfl
@[simp] theorem complete_run (s : State) : s.complete.run = s.run := rfl
@[simp] theorem complete_widx (s : State) : s.complete.widx = s.widx := rfl
@[simp] theorem complete_ht (s : State) : s.complete.ht = s.ht := rfl
@[simp] theorem complete_tc (s : State) : s.complete.tc = s.tc := rfl
@[simp] theorem complete_capMem (s : State) : s.complete.capMem = s.capMem := rfl
@[simp] theorem complete_halfValid0 (s : State) : s.complete.halfValid0 = s.halfValid0 := rfl
@[simp] theorem complete_halfValid1 (s : State) : s.complete.halfValid1 = s.halfValid1 := rfl
@[simp] theorem complete_dsCfg (s : State) : s.complete.dsCfg = s.dsCfg := rfl
@[simp] theorem complete_ratio (s : State) : s.complete.ratio = s.ratio := rfl
@[simp] theorem complete_count (s : State) : s.complete.count = s.count := rfl
@[simp] theorem complete_ready (s : State) : s.complete.ready = s.ready := rfl
@[simp] theorem complete_sample (s : State) : s.complete.sample = s.sample := rfl
@[simp] theorem complete_delay (s : State) : s.complete.delay = s.delay := rfl
@[simp] theorem complete_fill (s : State) : s.complete.fill = s.fill := rfl
@[simp] theorem complete_drain (s : State) : s.complete.drain = s.drain := rfl
@[simp] theorem complete_pos (s : State) : s.complete.pos = s.pos := rfl
@[simp] theorem complete_ovfCount (s : State) : s.complete.ovfCount = s.ovfCount := rfl
@[simp] theorem complete_ovfLatch (s : State) : s.complete.ovfLatch = s.ovfLatch := rfl
@[simp] theorem complete_ringMem (s : State) : s.complete.ringMem = s.ringMem := rfl
@[simp] theorem complete_schedule (s : State) : s.complete.schedule = s.schedule := rfl
@[simp] theorem complete_readData (s : State) : s.complete.readData = s.readData := rfl
@[simp] theorem complete_draws (s : State) : s.complete.draws = s.draws := rfl
@[simp] theorem complete_lastStatus (s : State) : s.complete.lastStatus = .ok := rfl

@[simp] theorem completeWith_params (v : Word) (s : State) : (s.completeWith v).params = s.params := rfl
@[simp] theorem completeWith_arg (v : Word) (s : State) : (s.completeWith v).arg = s.arg := rfl
@[simp] theorem completeWith_capCfg (v : Word) (s : State) : (s.completeWith v).capCfg = s.capCfg := rfl
@[simp] theorem completeWith_channel (v : Word) (s : State) : (s.completeWith v).channel = s.channel := rfl
@[simp] theorem completeWith_len (v : Word) (s : State) : (s.completeWith v).len = s.len := rfl
@[simp] theorem completeWith_rate (v : Word) (s : State) : (s.completeWith v).rate = s.rate := rfl
@[simp] theorem completeWith_run (v : Word) (s : State) : (s.completeWith v).run = s.run := rfl
@[simp] theorem completeWith_widx (v : Word) (s : State) : (s.completeWith v).widx = s.widx := rfl
@[simp] theorem completeWith_ht (v : Word) (s : State) : (s.completeWith v).ht = s.ht := rfl
@[simp] theorem completeWith_tc (v : Word) (s : State) : (s.completeWith v).tc = s.tc := rfl
@[simp] theorem completeWith_capMem (v : Word) (s : State) : (s.completeWith v).capMem = s.capMem := rfl
@[simp] theorem completeWith_halfValid0 (v : Word) (s : State) : (s.completeWith v).halfValid0 = s.halfValid0 := rfl
@[simp] theorem completeWith_halfValid1 (v : Word) (s : State) : (s.completeWith v).halfValid1 = s.halfValid1 := rfl
@[simp] theorem completeWith_dsCfg (v : Word) (s : State) : (s.completeWith v).dsCfg = s.dsCfg := rfl
@[simp] theorem completeWith_ratio (v : Word) (s : State) : (s.completeWith v).ratio = s.ratio := rfl
@[simp] theorem completeWith_count (v : Word) (s : State) : (s.completeWith v).count = s.count := rfl
@[simp] theorem completeWith_ready (v : Word) (s : State) : (s.completeWith v).ready = s.ready := rfl
@[simp] theorem completeWith_sample (v : Word) (s : State) : (s.completeWith v).sample = s.sample := rfl
@[simp] theorem completeWith_delay (v : Word) (s : State) : (s.completeWith v).delay = s.delay := rfl
@[simp] theorem completeWith_fill (v : Word) (s : State) : (s.completeWith v).fill = s.fill := rfl
@[simp] theorem completeWith_drain (v : Word) (s : State) : (s.completeWith v).drain = s.drain := rfl
@[simp] theorem completeWith_pos (v : Word) (s : State) : (s.completeWith v).pos = s.pos := rfl
@[simp] theorem completeWith_ovfCount (v : Word) (s : State) : (s.completeWith v).ovfCount = s.ovfCount := rfl
@[simp] theorem completeWith_ovfLatch (v : Word) (s : State) : (s.completeWith v).ovfLatch = s.ovfLatch := rfl
@[simp] theorem completeWith_ringMem (v : Word) (s : State) : (s.completeWith v).ringMem = s.ringMem := rfl
@[simp] theorem completeWith_schedule (v : Word) (s : State) : (s.completeWith v).schedule = s.schedule := rfl
@[simp] theorem completeWith_readData (v : Word) (s : State) : (s.completeWith v).readData = s.readData := rfl
@[simp] theorem completeWith_draws (v : Word) (s : State) : (s.completeWith v).draws = s.draws := rfl
@[simp] theorem completeWith_result (v : Word) (s : State) : (s.completeWith v).result = v := rfl
@[simp] theorem completeWith_lastStatus (v : Word) (s : State) : (s.completeWith v).lastStatus = .ok := rfl

/-! ## The engine tick (41_capture R105): what it leaves -/

@[simp] theorem tick_params (a b : Code) (s : State) : (tick a b s).params = s.params := rfl
@[simp] theorem tick_arg (a b : Code) (s : State) : (tick a b s).arg = s.arg := rfl
@[simp] theorem tick_result (a b : Code) (s : State) : (tick a b s).result = s.result := rfl
@[simp] theorem tick_lastStatus (a b : Code) (s : State) : (tick a b s).lastStatus = s.lastStatus := rfl
@[simp] theorem tick_capCfg (a b : Code) (s : State) : (tick a b s).capCfg = s.capCfg := rfl
@[simp] theorem tick_channel (a b : Code) (s : State) : (tick a b s).channel = s.channel := rfl
@[simp] theorem tick_len (a b : Code) (s : State) : (tick a b s).len = s.len := rfl
@[simp] theorem tick_rate (a b : Code) (s : State) : (tick a b s).rate = s.rate := rfl
@[simp] theorem tick_run (a b : Code) (s : State) : (tick a b s).run = s.run := rfl
@[simp] theorem tick_dsCfg (a b : Code) (s : State) : (tick a b s).dsCfg = s.dsCfg := rfl
@[simp] theorem tick_ratio (a b : Code) (s : State) : (tick a b s).ratio = s.ratio := rfl
@[simp] theorem tick_count (a b : Code) (s : State) : (tick a b s).count = s.count := rfl
@[simp] theorem tick_ready (a b : Code) (s : State) : (tick a b s).ready = s.ready := rfl
@[simp] theorem tick_sample (a b : Code) (s : State) : (tick a b s).sample = s.sample := rfl
@[simp] theorem tick_delay (a b : Code) (s : State) : (tick a b s).delay = s.delay := rfl
@[simp] theorem tick_fill (a b : Code) (s : State) : (tick a b s).fill = s.fill := rfl
@[simp] theorem tick_drain (a b : Code) (s : State) : (tick a b s).drain = s.drain := rfl
@[simp] theorem tick_pos (a b : Code) (s : State) : (tick a b s).pos = s.pos := rfl
@[simp] theorem tick_ovfCount (a b : Code) (s : State) : (tick a b s).ovfCount = s.ovfCount := rfl
@[simp] theorem tick_ovfLatch (a b : Code) (s : State) : (tick a b s).ovfLatch = s.ovfLatch := rfl
@[simp] theorem tick_ringMem (a b : Code) (s : State) : (tick a b s).ringMem = s.ringMem := rfl
@[simp] theorem tick_schedule (a b : Code) (s : State) : (tick a b s).schedule = s.schedule := rfl
@[simp] theorem tick_readData (a b : Code) (s : State) : (tick a b s).readData = s.readData := rfl
@[simp] theorem tick_draws (a b : Code) (s : State) : (tick a b s).draws = s.draws := rfl

/-! ## The decimator's internal functions (40_filter_downsampler R80, R81): what they leave -/

@[simp] theorem dsUpdateCore_params (x : Word) (s : State) : (dsUpdateCore x s).params = s.params := rfl
@[simp] theorem dsUpdateCore_arg (x : Word) (s : State) : (dsUpdateCore x s).arg = s.arg := rfl
@[simp] theorem dsUpdateCore_result (x : Word) (s : State) : (dsUpdateCore x s).result = s.result := rfl
@[simp] theorem dsUpdateCore_lastStatus (x : Word) (s : State) : (dsUpdateCore x s).lastStatus = s.lastStatus := rfl
@[simp] theorem dsUpdateCore_capCfg (x : Word) (s : State) : (dsUpdateCore x s).capCfg = s.capCfg := rfl
@[simp] theorem dsUpdateCore_channel (x : Word) (s : State) : (dsUpdateCore x s).channel = s.channel := rfl
@[simp] theorem dsUpdateCore_len (x : Word) (s : State) : (dsUpdateCore x s).len = s.len := rfl
@[simp] theorem dsUpdateCore_rate (x : Word) (s : State) : (dsUpdateCore x s).rate = s.rate := rfl
@[simp] theorem dsUpdateCore_run (x : Word) (s : State) : (dsUpdateCore x s).run = s.run := rfl
@[simp] theorem dsUpdateCore_widx (x : Word) (s : State) : (dsUpdateCore x s).widx = s.widx := rfl
@[simp] theorem dsUpdateCore_ht (x : Word) (s : State) : (dsUpdateCore x s).ht = s.ht := rfl
@[simp] theorem dsUpdateCore_tc (x : Word) (s : State) : (dsUpdateCore x s).tc = s.tc := rfl
@[simp] theorem dsUpdateCore_capMem (x : Word) (s : State) : (dsUpdateCore x s).capMem = s.capMem := rfl
@[simp] theorem dsUpdateCore_halfValid0 (x : Word) (s : State) : (dsUpdateCore x s).halfValid0 = s.halfValid0 := rfl
@[simp] theorem dsUpdateCore_halfValid1 (x : Word) (s : State) : (dsUpdateCore x s).halfValid1 = s.halfValid1 := rfl
@[simp] theorem dsUpdateCore_dsCfg (x : Word) (s : State) : (dsUpdateCore x s).dsCfg = s.dsCfg := rfl
@[simp] theorem dsUpdateCore_ratio (x : Word) (s : State) : (dsUpdateCore x s).ratio = s.ratio := rfl
@[simp] theorem dsUpdateCore_fill (x : Word) (s : State) : (dsUpdateCore x s).fill = s.fill := rfl
@[simp] theorem dsUpdateCore_drain (x : Word) (s : State) : (dsUpdateCore x s).drain = s.drain := rfl
@[simp] theorem dsUpdateCore_pos (x : Word) (s : State) : (dsUpdateCore x s).pos = s.pos := rfl
@[simp] theorem dsUpdateCore_ovfCount (x : Word) (s : State) : (dsUpdateCore x s).ovfCount = s.ovfCount := rfl
@[simp] theorem dsUpdateCore_ovfLatch (x : Word) (s : State) : (dsUpdateCore x s).ovfLatch = s.ovfLatch := rfl
@[simp] theorem dsUpdateCore_ringMem (x : Word) (s : State) : (dsUpdateCore x s).ringMem = s.ringMem := rfl
@[simp] theorem dsUpdateCore_schedule (x : Word) (s : State) : (dsUpdateCore x s).schedule = s.schedule := rfl
@[simp] theorem dsUpdateCore_readData (x : Word) (s : State) : (dsUpdateCore x s).readData = s.readData := rfl
@[simp] theorem dsUpdateCore_draws (x : Word) (s : State) : (dsUpdateCore x s).draws = s.draws := rfl
@[simp] theorem dsUpdateCore_delay (x : Word) (s : State) : (dsUpdateCore x s).delay = (filterStep x s).1 := rfl

@[simp] theorem dsGetCore_params (s : State) : (dsGetCore s).params = s.params := rfl
@[simp] theorem dsGetCore_arg (s : State) : (dsGetCore s).arg = s.arg := rfl
@[simp] theorem dsGetCore_result (s : State) : (dsGetCore s).result = s.result := rfl
@[simp] theorem dsGetCore_lastStatus (s : State) : (dsGetCore s).lastStatus = s.lastStatus := rfl
@[simp] theorem dsGetCore_capCfg (s : State) : (dsGetCore s).capCfg = s.capCfg := rfl
@[simp] theorem dsGetCore_channel (s : State) : (dsGetCore s).channel = s.channel := rfl
@[simp] theorem dsGetCore_len (s : State) : (dsGetCore s).len = s.len := rfl
@[simp] theorem dsGetCore_rate (s : State) : (dsGetCore s).rate = s.rate := rfl
@[simp] theorem dsGetCore_run (s : State) : (dsGetCore s).run = s.run := rfl
@[simp] theorem dsGetCore_widx (s : State) : (dsGetCore s).widx = s.widx := rfl
@[simp] theorem dsGetCore_ht (s : State) : (dsGetCore s).ht = s.ht := rfl
@[simp] theorem dsGetCore_tc (s : State) : (dsGetCore s).tc = s.tc := rfl
@[simp] theorem dsGetCore_capMem (s : State) : (dsGetCore s).capMem = s.capMem := rfl
@[simp] theorem dsGetCore_halfValid0 (s : State) : (dsGetCore s).halfValid0 = s.halfValid0 := rfl
@[simp] theorem dsGetCore_halfValid1 (s : State) : (dsGetCore s).halfValid1 = s.halfValid1 := rfl
@[simp] theorem dsGetCore_dsCfg (s : State) : (dsGetCore s).dsCfg = s.dsCfg := rfl
@[simp] theorem dsGetCore_ratio (s : State) : (dsGetCore s).ratio = s.ratio := rfl
@[simp] theorem dsGetCore_count (s : State) : (dsGetCore s).count = s.count := rfl
@[simp] theorem dsGetCore_sample (s : State) : (dsGetCore s).sample = s.sample := rfl
@[simp] theorem dsGetCore_delay (s : State) : (dsGetCore s).delay = s.delay := rfl
@[simp] theorem dsGetCore_fill (s : State) : (dsGetCore s).fill = s.fill := rfl
@[simp] theorem dsGetCore_drain (s : State) : (dsGetCore s).drain = s.drain := rfl
@[simp] theorem dsGetCore_pos (s : State) : (dsGetCore s).pos = s.pos := rfl
@[simp] theorem dsGetCore_ovfCount (s : State) : (dsGetCore s).ovfCount = s.ovfCount := rfl
@[simp] theorem dsGetCore_ovfLatch (s : State) : (dsGetCore s).ovfLatch = s.ovfLatch := rfl
@[simp] theorem dsGetCore_ringMem (s : State) : (dsGetCore s).ringMem = s.ringMem := rfl
@[simp] theorem dsGetCore_schedule (s : State) : (dsGetCore s).schedule = s.schedule := rfl
@[simp] theorem dsGetCore_readData (s : State) : (dsGetCore s).readData = s.readData := rfl
@[simp] theorem dsGetCore_draws (s : State) : (dsGetCore s).draws = s.draws := rfl
@[simp] theorem dsGetCore_ready (s : State) : (dsGetCore s).ready = false := rfl

/-! ## The ring's internal functions (43_ring R133, R134): what they leave -/

@[simp] theorem advanceCore_params (s : State) : (advanceCore s).params = s.params := rfl
@[simp] theorem advanceCore_arg (s : State) : (advanceCore s).arg = s.arg := rfl
@[simp] theorem advanceCore_result (s : State) : (advanceCore s).result = s.result := rfl
@[simp] theorem advanceCore_lastStatus (s : State) : (advanceCore s).lastStatus = s.lastStatus := rfl
@[simp] theorem advanceCore_capCfg (s : State) : (advanceCore s).capCfg = s.capCfg := rfl
@[simp] theorem advanceCore_channel (s : State) : (advanceCore s).channel = s.channel := rfl
@[simp] theorem advanceCore_len (s : State) : (advanceCore s).len = s.len := rfl
@[simp] theorem advanceCore_rate (s : State) : (advanceCore s).rate = s.rate := rfl
@[simp] theorem advanceCore_run (s : State) : (advanceCore s).run = s.run := rfl
@[simp] theorem advanceCore_widx (s : State) : (advanceCore s).widx = s.widx := rfl
@[simp] theorem advanceCore_ht (s : State) : (advanceCore s).ht = s.ht := rfl
@[simp] theorem advanceCore_tc (s : State) : (advanceCore s).tc = s.tc := rfl
@[simp] theorem advanceCore_capMem (s : State) : (advanceCore s).capMem = s.capMem := rfl
@[simp] theorem advanceCore_halfValid0 (s : State) : (advanceCore s).halfValid0 = s.halfValid0 := rfl
@[simp] theorem advanceCore_halfValid1 (s : State) : (advanceCore s).halfValid1 = s.halfValid1 := rfl
@[simp] theorem advanceCore_dsCfg (s : State) : (advanceCore s).dsCfg = s.dsCfg := rfl
@[simp] theorem advanceCore_ratio (s : State) : (advanceCore s).ratio = s.ratio := rfl
@[simp] theorem advanceCore_count (s : State) : (advanceCore s).count = s.count := rfl
@[simp] theorem advanceCore_ready (s : State) : (advanceCore s).ready = s.ready := rfl
@[simp] theorem advanceCore_sample (s : State) : (advanceCore s).sample = s.sample := rfl
@[simp] theorem advanceCore_delay (s : State) : (advanceCore s).delay = s.delay := rfl
@[simp] theorem advanceCore_drain (s : State) : (advanceCore s).drain = s.drain := rfl
@[simp] theorem advanceCore_pos (s : State) : (advanceCore s).pos = s.pos := rfl
@[simp] theorem advanceCore_ringMem (s : State) : (advanceCore s).ringMem = s.ringMem := rfl
@[simp] theorem advanceCore_schedule (s : State) : (advanceCore s).schedule = s.schedule := rfl
@[simp] theorem advanceCore_readData (s : State) : (advanceCore s).readData = s.readData := rfl
@[simp] theorem advanceCore_draws (s : State) : (advanceCore s).draws = s.draws := rfl
@[simp] theorem advanceCore_fill (s : State) : (advanceCore s).fill = nextSlot s.params s.fill := rfl
@[simp] theorem advanceCore_ovfLatch (s : State) : (advanceCore s).ovfLatch = overflowEvent s := rfl

@[simp] theorem storeRingByte_params (b : Byte) (s : State) : (storeRingByte b s).params = s.params := rfl
@[simp] theorem storeRingByte_arg (b : Byte) (s : State) : (storeRingByte b s).arg = s.arg := rfl
@[simp] theorem storeRingByte_result (b : Byte) (s : State) : (storeRingByte b s).result = s.result := rfl
@[simp] theorem storeRingByte_lastStatus (b : Byte) (s : State) : (storeRingByte b s).lastStatus = s.lastStatus := rfl
@[simp] theorem storeRingByte_capCfg (b : Byte) (s : State) : (storeRingByte b s).capCfg = s.capCfg := rfl
@[simp] theorem storeRingByte_channel (b : Byte) (s : State) : (storeRingByte b s).channel = s.channel := rfl
@[simp] theorem storeRingByte_len (b : Byte) (s : State) : (storeRingByte b s).len = s.len := rfl
@[simp] theorem storeRingByte_rate (b : Byte) (s : State) : (storeRingByte b s).rate = s.rate := rfl
@[simp] theorem storeRingByte_run (b : Byte) (s : State) : (storeRingByte b s).run = s.run := rfl
@[simp] theorem storeRingByte_widx (b : Byte) (s : State) : (storeRingByte b s).widx = s.widx := rfl
@[simp] theorem storeRingByte_ht (b : Byte) (s : State) : (storeRingByte b s).ht = s.ht := rfl
@[simp] theorem storeRingByte_tc (b : Byte) (s : State) : (storeRingByte b s).tc = s.tc := rfl
@[simp] theorem storeRingByte_capMem (b : Byte) (s : State) : (storeRingByte b s).capMem = s.capMem := rfl
@[simp] theorem storeRingByte_halfValid0 (b : Byte) (s : State) : (storeRingByte b s).halfValid0 = s.halfValid0 := rfl
@[simp] theorem storeRingByte_halfValid1 (b : Byte) (s : State) : (storeRingByte b s).halfValid1 = s.halfValid1 := rfl
@[simp] theorem storeRingByte_dsCfg (b : Byte) (s : State) : (storeRingByte b s).dsCfg = s.dsCfg := rfl
@[simp] theorem storeRingByte_ratio (b : Byte) (s : State) : (storeRingByte b s).ratio = s.ratio := rfl
@[simp] theorem storeRingByte_count (b : Byte) (s : State) : (storeRingByte b s).count = s.count := rfl
@[simp] theorem storeRingByte_ready (b : Byte) (s : State) : (storeRingByte b s).ready = s.ready := rfl
@[simp] theorem storeRingByte_sample (b : Byte) (s : State) : (storeRingByte b s).sample = s.sample := rfl
@[simp] theorem storeRingByte_delay (b : Byte) (s : State) : (storeRingByte b s).delay = s.delay := rfl
@[simp] theorem storeRingByte_fill (b : Byte) (s : State) : (storeRingByte b s).fill = s.fill := rfl
@[simp] theorem storeRingByte_drain (b : Byte) (s : State) : (storeRingByte b s).drain = s.drain := rfl
@[simp] theorem storeRingByte_pos (b : Byte) (s : State) : (storeRingByte b s).pos = s.pos := rfl
@[simp] theorem storeRingByte_ovfCount (b : Byte) (s : State) : (storeRingByte b s).ovfCount = s.ovfCount := rfl
@[simp] theorem storeRingByte_ovfLatch (b : Byte) (s : State) : (storeRingByte b s).ovfLatch = s.ovfLatch := rfl
@[simp] theorem storeRingByte_schedule (b : Byte) (s : State) : (storeRingByte b s).schedule = s.schedule := rfl
@[simp] theorem storeRingByte_readData (b : Byte) (s : State) : (storeRingByte b s).readData = s.readData := rfl
@[simp] theorem storeRingByte_draws (b : Byte) (s : State) : (storeRingByte b s).draws = s.draws := rfl

@[simp] theorem appendCore_params (b : Byte) (s : State) : (appendCore b s).params = s.params := by
  unfold appendCore; split <;> rfl
@[simp] theorem appendCore_arg (b : Byte) (s : State) : (appendCore b s).arg = s.arg := by
  unfold appendCore; split <;> rfl
@[simp] theorem appendCore_result (b : Byte) (s : State) : (appendCore b s).result = s.result := by
  unfold appendCore; split <;> rfl
@[simp] theorem appendCore_lastStatus (b : Byte) (s : State) : (appendCore b s).lastStatus = s.lastStatus := by
  unfold appendCore; split <;> rfl
@[simp] theorem appendCore_capCfg (b : Byte) (s : State) : (appendCore b s).capCfg = s.capCfg := by
  unfold appendCore; split <;> rfl
@[simp] theorem appendCore_channel (b : Byte) (s : State) : (appendCore b s).channel = s.channel := by
  unfold appendCore; split <;> rfl
@[simp] theorem appendCore_len (b : Byte) (s : State) : (appendCore b s).len = s.len := by
  unfold appendCore; split <;> rfl
@[simp] theorem appendCore_rate (b : Byte) (s : State) : (appendCore b s).rate = s.rate := by
  unfold appendCore; split <;> rfl
@[simp] theorem appendCore_run (b : Byte) (s : State) : (appendCore b s).run = s.run := by
  unfold appendCore; split <;> rfl
@[simp] theorem appendCore_widx (b : Byte) (s : State) : (appendCore b s).widx = s.widx := by
  unfold appendCore; split <;> rfl
@[simp] theorem appendCore_ht (b : Byte) (s : State) : (appendCore b s).ht = s.ht := by
  unfold appendCore; split <;> rfl
@[simp] theorem appendCore_tc (b : Byte) (s : State) : (appendCore b s).tc = s.tc := by
  unfold appendCore; split <;> rfl
@[simp] theorem appendCore_capMem (b : Byte) (s : State) : (appendCore b s).capMem = s.capMem := by
  unfold appendCore; split <;> rfl
@[simp] theorem appendCore_halfValid0 (b : Byte) (s : State) : (appendCore b s).halfValid0 = s.halfValid0 := by
  unfold appendCore; split <;> rfl
@[simp] theorem appendCore_halfValid1 (b : Byte) (s : State) : (appendCore b s).halfValid1 = s.halfValid1 := by
  unfold appendCore; split <;> rfl
@[simp] theorem appendCore_dsCfg (b : Byte) (s : State) : (appendCore b s).dsCfg = s.dsCfg := by
  unfold appendCore; split <;> rfl
@[simp] theorem appendCore_ratio (b : Byte) (s : State) : (appendCore b s).ratio = s.ratio := by
  unfold appendCore; split <;> rfl
@[simp] theorem appendCore_count (b : Byte) (s : State) : (appendCore b s).count = s.count := by
  unfold appendCore; split <;> rfl
@[simp] theorem appendCore_ready (b : Byte) (s : State) : (appendCore b s).ready = s.ready := by
  unfold appendCore; split <;> rfl
@[simp] theorem appendCore_sample (b : Byte) (s : State) : (appendCore b s).sample = s.sample := by
  unfold appendCore; split <;> rfl
@[simp] theorem appendCore_delay (b : Byte) (s : State) : (appendCore b s).delay = s.delay := by
  unfold appendCore; split <;> rfl
@[simp] theorem appendCore_drain (b : Byte) (s : State) : (appendCore b s).drain = s.drain := by
  unfold appendCore; split <;> rfl
@[simp] theorem appendCore_schedule (b : Byte) (s : State) : (appendCore b s).schedule = s.schedule := by
  unfold appendCore; split <;> rfl
@[simp] theorem appendCore_readData (b : Byte) (s : State) : (appendCore b s).readData = s.readData := by
  unfold appendCore; split <;> rfl
@[simp] theorem appendCore_draws (b : Byte) (s : State) : (appendCore b s).draws = s.draws := by
  unfold appendCore; split <;> rfl
@[simp] theorem appendCore_ringMem (b : Byte) (s : State) :
    (appendCore b s).ringMem = s.ringMem.write (slotAddr s.params s.fill.toNat s.pos.toNat) b := by
  unfold appendCore; split <;> rfl

/-! ## The reset values (10_state R22) -/

@[simp] theorem resetWith_params (p : Params) : (State.resetWith p).params = p := rfl
@[simp] theorem reset_params : State.reset.params = Config.build.val := rfl

end Sys2Proof.Machine
end

