-- ==== Sys2Proof/Laws/Decimator.lean ====
section
/-! SUPPORT. The decimator (40_filter_downsampler): the delay registers the cascade touches, and how the counter moves. -/

namespace Sys2Proof.Machine

open Sys2Proof

/-- The cascade keeps the number of delay registers. -/
@[simp] theorem cascade_length (cs : List Section) (ds : List Delay) (v : Word) : (cascade cs ds v).1.length = ds.length := by
  induction cs generalizing ds v with
  | nil => rfl
  | cons c cs ih =>
    cases ds with
    | nil => rfl
    | cons d ds => simp [cascade, ih]

/-- The cascade leaves the registers of sections past its own (10_state R32). -/
theorem cascade_drop (cs : List Section) (ds : List Delay) (v : Word) :
    (cascade cs ds v).1.drop cs.length = ds.drop cs.length := by
  induction cs generalizing ds v with
  | nil => rfl
  | cons c cs ih =>
    cases ds with
    | nil => rfl
    | cons d ds => simp [cascade, ih]

/-- COUNT after an update, as a number (R80). -/
theorem dsUpdateCore_count_toNat {x : Word} {s : State} (h : s.count.toNat < s.ratio.toNat) :
    (dsUpdateCore x s).count.toNat = (s.count.toNat + 1) % s.ratio.toNat := by
  have := s.ratio.isLt
  simp only [dsUpdateCore]
  split
  · rename_i h
    simp only [decide_eq_true_eq] at h
    rw [h]
    simp
  · rename_i h
    simp only [decide_eq_true_eq] at h
    rw [BitVec.toNat_ofNat, Nat.mod_eq_of_lt (by omega), Nat.mod_eq_of_lt (by omega)]

end Sys2Proof.Machine
end

