-- ==== Sys2Proof/Laws/Float.lean ====
section
/-! SUPPORT. The laws of binary32 arithmetic on bit patterns (40_filter_downsampler R75, R76, R77): the fields, what rounding to
nearest gives, and the finite cases of the two operations. -/

namespace Sys2Proof.Machine

open Sys2Proof

/-- The three fields of a binary32 make up its bits (40_filter_downsampler R75). -/
theorem f32_toNat (x : Word) : x.toNat = (if f32Sign x then 2147483648 else 0) + 8388608 * f32Exp x + f32Frac x := by
  have h := x.isLt
  have hs : f32Sign x = decide (x.toNat / 2 ^ 31 % 2 = 1) := by
    rw [f32Sign, BitVec.getLsbD, Nat.testBit_eq_decide_div_mod_eq]
  have he : f32Exp x = x.toNat / 2 ^ 23 % 2 ^ 8 := extract_toNat x 23 8
  have hf : f32Frac x = x.toNat / 2 ^ 0 % 2 ^ 23 := extract_toNat x 0 23
  rw [he, hf]
  by_cases h2 : x.toNat / 2 ^ 31 % 2 = 1
  · rw [hs, decide_eq_true h2, if_pos rfl]
    omega
  · rw [hs, decide_eq_false h2, if_neg Bool.false_ne_true]
    omega

/-- The exponent field has 8 bits. -/
theorem f32Exp_lt (x : Word) : f32Exp x < 256 := (x.extractLsb' 23 8).isLt

/-- The fraction field has 23 bits. -/
theorem f32Frac_lt (x : Word) : f32Frac x < 8388608 := (x.extractLsb' 0 23).isLt

/-- The fields of a word put together from a sign and magnitude bits. -/
theorem f32_pack_fields (b : Bool) (g : Nat) (h : g < 2147483648) :
    f32Sign (f32SignBit b ||| BitVec.ofNat 32 g) = b ∧ f32Exp (f32SignBit b ||| BitVec.ofNat 32 g) = g / 8388608 ∧
      f32Frac (f32SignBit b ||| BitVec.ofNat 32 g) = g % 8388608 := by
  have e : (f32SignBit b ||| BitVec.ofNat 32 g).toNat = (if b then 2147483648 else 0) + g := by
    rw [BitVec.toNat_or, BitVec.toNat_ofNat, Nat.mod_eq_of_lt (by omega)]
    cases b
    · simp [f32SignBit]
    · have := Nat.two_pow_add_eq_or_of_lt (show g < 2 ^ 31 by omega) 1
      simp [f32SignBit]
      simpa using this.symm
  have h2 := f32_toNat (f32SignBit b ||| BitVec.ofNat 32 g)
  have h3 := f32Exp_lt (f32SignBit b ||| BitVec.ofNat 32 g)
  have h4 := f32Frac_lt (f32SignBit b ||| BitVec.ofNat 32 g)
  rw [e] at h2
  generalize f32SignBit b ||| BitVec.ofNat 32 g = w at *
  cases b <;> cases hs : f32Sign w <;> rw [hs] at h2 <;> simp only [if_true, if_false, Bool.false_eq_true, true_and, reduceCtorEq, false_and] at h2 ⊢ <;> omega

/-- The magnitude that magnitude bits stand for, in units of `2^-149` (R75). -/
def magUnits (g : Nat) : Nat := if g / 8388608 = 0 then g % 8388608 else (8388608 + g % 8388608) * 2 ^ (g / 8388608 - 1)

/-- Magnitude bits `e * 2^23 + q`, with `q` a rounded significand, stand for `q * 2^e` units. -/
theorem magUnits_eq (e q : Nat) (h : q ≤ 16777216) (h2 : e = 0 ∨ 8388608 ≤ q) : magUnits (e * 8388608 + q) = q * 2 ^ e := by
  unfold magUnits
  rcases Nat.lt_or_ge q 8388608 with hq | hq
  · have : e = 0 := by omega
    subst this
    rw [if_pos (by omega), Nat.zero_mul, Nat.zero_add, pow_zero, Nat.mul_one, Nat.mod_eq_of_lt hq]
  · rw [if_neg (by omega)]
    rcases Nat.lt_or_ge q 16777216 with hq2 | hq2
    · have h3 : 8388608 + (e * 8388608 + q) % 8388608 = q := by omega
      have h4 : (e * 8388608 + q) / 8388608 - 1 = e := by omega
      rw [h3, h4]
    · have hq3 : q = 16777216 := by omega
      have h3 : (e * 8388608 + q) % 8388608 = 0 := by omega
      have h4 : (e * 8388608 + q) / 8388608 - 1 = e + 1 := by omega
      rw [h3, h4, pow_succ, hq3]
      ring

/-- Rounding is off by at most half a unit, and lands on an even integer when it is off by half. -/
theorem roundNearestEven_bounds (m k : Nat) : 
   2 * m ≤ 2 * (roundNearestEven m k * 2 ^ k) + 2 ^ k ∧ 2 * (roundNearestEven m k * 2 ^ k) ≤ 2 * m + 2 ^ k ∧ 
   (2 * m = 2 * (roundNearestEven m k * 2 ^ k) + 2 ^ k ∨ 2 * (roundNearestEven m k * 2 ^ k) = 2 * m + 2 ^ k → roundNearestEven m k % 2 = 0) := by
  have h := Nat.div_add_mod m (2^k)
  have h2 := Nat.mod_lt m (show 0 < 2^k by positivity)
  simp only [roundNearestEven]
  rw [Nat.mul_comm] at h
  split
  · rw [Nat.add_mul]; 
    rename_i h3
    generalize m / 2^k * 2^k = z at *
    refine ⟨by omega, by omega, fun h4 => ?_⟩
    rcases h3 with h3 | h3 <;> omega
  · rename_i h3
    generalize m / 2^k * 2^k = z at *
    refine ⟨by omega, by omega, fun h4 => ?_⟩
    omega

/-- No multiple of `2^k` is nearer than the rounded one; where another is as near, the rounded one is even (R76). -/
theorem roundNearestEven_nearest (m k y : Nat) :
   ((m : Int) - (roundNearestEven m k * 2 ^ k : Nat)).natAbs ≤ ((m : Int) - (y * 2^k : Nat)).natAbs ∧
   (((m : Int) - (roundNearestEven m k * 2 ^ k : Nat)).natAbs = ((m : Int) - (y * 2^k : Nat)).natAbs → y ≠ roundNearestEven m k → roundNearestEven m k % 2 = 0) := by
  obtain ⟨h1, h2, h3⟩ := roundNearestEven_bounds m k
  generalize roundNearestEven m k = q at *
  have hp : 0 < 2^k := by positivity
  rcases Nat.lt_trichotomy y q with h | h | h
  · obtain ⟨d, rfl⟩ := Nat.exists_eq_add_of_lt h
    have e : (y + d + 1) * 2^k = y * 2^k + d * 2^k + 2^k := by ring
    rw [e] at h1 h2 h3 ⊢
    generalize 2^k = p at *
    generalize y * p = yp at *
    generalize d * p = dp at *
    refine ⟨by omega, fun h4 _ => h3 (by omega)⟩
  · subst h; exact ⟨le_refl _, fun _ h => absurd rfl h⟩
  · obtain ⟨d, rfl⟩ := Nat.exists_eq_add_of_lt h
    have e : (q + d + 1) * 2^k = q * 2^k + d * 2^k + 2^k := by ring
    rw [e]
    generalize 2^k = p at *
    generalize q * p = yp at *
    generalize d * p = dp at *
    refine ⟨by omega, fun h4 _ => h3 (by omega)⟩

/-- An upper bound carries over to the rounded integer. -/
theorem roundNearestEven_le (m k b : Nat) (h : m < b * 2^k) : roundNearestEven m k ≤ b := by
  have := Nat.div_lt_of_lt_mul (by rwa [Nat.mul_comm] at h)
  simp only [roundNearestEven]; split <;> omega

/-- A lower bound carries over to the rounded integer. -/
theorem roundNearestEven_ge (m k b : Nat) (h : b * 2^k ≤ m) : b ≤ roundNearestEven m k := by
  have := (Nat.le_div_iff_mul_le (show 0 < 2^k by positivity)).2 h
  simp only [roundNearestEven]; split <;> omega

/-- An integer already a multiple is its own rounding. -/
theorem roundNearestEven_exact (q k : Nat) : roundNearestEven (q * 2^k) k = q := by
  have h2 : 0 < 2^k := by positivity
  unfold roundNearestEven
  simp only
  rw [Nat.mul_mod_left, Nat.mul_div_cancel _ h2, if_neg]
  omega

/-- The dropped bits leave at most 24, and exactly 24 unless the least exponent is reached. -/
theorem roundShift_bounds (m u : Nat) (hm : 0 < m) : u ≤ roundShift m u ∧ m < 16777216 * 2 ^ (roundShift m u) ∧ (roundShift m u = u ∨ 8388608 * 2 ^ (roundShift m u) ≤ m) := by
  have h1 := Nat.lt_log2_self (n := m)
  have h2 := Nat.log2_self_le (show m ≠ 0 by omega)
  unfold roundShift
  refine ⟨by omega, ?_, ?_⟩
  · refine lt_of_lt_of_le h1 ?_
    rw [show 16777216 = 2^24 by rfl, ← pow_add]; exact Nat.pow_le_pow_right (by omega) (by omega)
  · rcases Nat.lt_or_ge u (Nat.log2 m - 23) with h | h
    · right
      rw [show 8388608 = 2^23 by rfl, ← pow_add]; refine le_trans (Nat.pow_le_pow_right (by omega) ?_) h2; omega
    · left; omega

/-- The rounded significand has at most 24 bits, or is `2^24`; above the least exponent it is at least `2^23`. -/
theorem roundedSignificand_bounds (m u : Nat) (hm : 0 < m) : roundNearestEven m (roundShift m u) ≤ 16777216 ∧ (roundShift m u - u = 0 ∨ 8388608 ≤ roundNearestEven m (roundShift m u)) := by
  obtain ⟨h1, h2, h3⟩ := roundShift_bounds m u hm
  refine ⟨roundNearestEven_le _ _ _ h2, ?_⟩
  rcases h3 with h3 | h3
  · left; omega
  · right; exact roundNearestEven_ge _ _ _ h3

/-- Overflow begins at the midpoint above the largest finite number, `(2^24 - 1/2) * 2^253` units (R76). -/
theorem roundPack_overflow_iff (m u : Nat) (hm : 0 < m) : 0x7F800000 ≤ (roundShift m u - u) * 8388608 + roundNearestEven m (roundShift m u) ↔ (2 ^ 25 - 1) * 2 ^ 252 * 2 ^ u ≤ m := by
  obtain ⟨h1, h2, h3⟩ := roundShift_bounds m u hm
  obtain ⟨q1, q2⟩ := roundedSignificand_bounds m u hm
  obtain ⟨b1, b2, b3⟩ := roundNearestEven_bounds m (roundShift m u)
  generalize hs : roundShift m u = s at *
  generalize hq : roundNearestEven m s = q at *
  obtain ⟨e, rfl⟩ := Nat.exists_eq_add_of_le h1
  rw [Nat.add_sub_cancel_left] at *
  rw [pow_add] at *
  have hP : 0 < 2^u := by positivity
  rcases Nat.lt_trichotomy e 253 with h | h | h
  · have hle : 2^e ≤ 2^252 := Nat.pow_le_pow_right (by omega) (by omega)
    refine ⟨fun h5 => by omega, fun h5 => ?_⟩
    exfalso
    have : 16777216 * (2^u * 2^e) ≤ 16777216 * (2^u * 2^252) := by gcongr
    generalize 2^u = P at *
    omega
  · subst h
    have e1 : (2:Nat)^253 = 2 * 2^252 := by rw [← pow_succ']
    generalize 2^u = P at *
    generalize (2:Nat)^253 = S at *
    generalize (2:Nat)^252 = T at *
    subst e1
    have hq2 : 0x7F800000 ≤ 253 * 8388608 + q ↔ q = 16777216 := by omega
    rw [hq2]
    refine ⟨fun h5 => ?_, fun h5 => ?_⟩
    · subst h5
      have e2 : 16777216 * (P * (2 * T)) = 33554432 * (T * P) := by ring
      have e3 : P * (2*T) = 2 * (T * P) := by ring
      have e4 : (2^25 - 1) * T * P = 33554431 * (T * P) := by norm_num; ring
      rw [e2] at b1 b2
      rw [e3] at b1 b2
      rw [e4]
      generalize T * P = z at *
      omega
    · by_contra hne
      have hlt : q ≤ 16777215 := by omega
      have e2 : q * (P * (2 * T)) = 2 * (q * (T * P)) := by ring
      have e3 : P * (2*T) = 2 * (T * P) := by ring
      have e4 : (2^25 - 1) * T * P = 33554431 * (T * P) := by norm_num; ring
      have e5 : q * (T * P) ≤ 16777215 * (T*P) := by gcongr
      rw [e2, e3] at b1 b2 b3
      rw [e4] at h5
      have : q * (T*P) = 16777215 * (T * P) := by
        generalize T * P = z at *
        generalize q * z = y at *
        omega
      have hz : 0 < T * P := by
        rcases Nat.eq_zero_or_pos (T*P) with hz | hz
        · rw [e3, hz] at h2; omega
        · exact hz
      have hq3 : q = 16777215 := Nat.eq_of_mul_eq_mul_right hz this
      have := b3 (by left; rw [this]; generalize T * P = z at *; omega)
      omega
  · refine ⟨fun _ => ?_, fun _ => by omega⟩
    rcases h3 with h3 | h3
    · omega
    have hle : 2 * 2^253 ≤ 2^e := by rw [← pow_succ']; exact Nat.pow_le_pow_right (by omega) (by omega)
    have e1 : (2:Nat)^253 = 2 * 2^252 := by rw [← pow_succ']
    have : 8388608 * (2^u * (2 * 2^253)) ≤ 8388608 * (2^u * 2^e) := by gcongr
    rw [e1] at this
    generalize 2^u = P at *
    generalize (2:Nat)^252 = T at *
    have e4 : (2^25 - 1) * T * P = 33554431 * (T * P) := by norm_num; ring
    have e5 : 8388608 * (P * (2 * (2 * T))) = 33554432 * (T * P) := by ring
    rw [e5] at this; rw [e4]
    generalize T * P = z at *
    omega

/-- A finite magnitude is an integer below `2^24` times a power of two, normalised unless the power is 0. -/
theorem f32Units_shape (y : Word) : ∃ k j, f32Units y = k * 2^j ∧ k < 16777216 ∧ (j = 0 ∨ 8388608 ≤ k) := by
  have := f32Frac_lt y
  unfold f32Units
  split
  · exact ⟨f32Frac y, 0, by simp, by omega, .inl rfl⟩
  · exact ⟨_, _, rfl, by omega, .inr (by omega)⟩

/-- A NaN by its fields (R75). -/
theorem f32IsNaN_iff (x : Word) : f32IsNaN x = true ↔ f32Exp x = 255 ∧ f32Frac x ≠ 0 := by
  simp [f32IsNaN]

/-- An infinity by its fields (R75). -/
theorem f32IsInf_iff (x : Word) : f32IsInf x = true ↔ f32Exp x = 255 ∧ f32Frac x = 0 := by
  simp [f32IsInf]

/-- A finite number by its fields (R75). -/
theorem f32_finite_iff (x : Word) : (f32IsNaN x = false ∧ f32IsInf x = false) ↔ f32Exp x ≠ 255 := by
  unfold f32IsNaN f32IsInf
  by_cases h : f32Exp x = 255 <;> by_cases h2 : f32Frac x = 0 <;> simp [h, h2]

/-- The rounded significand, at its exponent, is as near to `m` as any finite magnitude; where another is as near, it is even (R76). -/
theorem roundPack_nearest (m u : Nat) (hm : 0 < m) (y : Word) :
   ((m : Int) - (roundNearestEven m (roundShift m u) * 2 ^ (roundShift m u) : Nat)).natAbs ≤ ((m : Int) - (f32Units y * 2^u : Nat)).natAbs ∧
   (((m : Int) - (roundNearestEven m (roundShift m u) * 2 ^ (roundShift m u) : Nat)).natAbs = ((m : Int) - (f32Units y * 2^u : Nat)).natAbs → 
     f32Units y * 2^u ≠ roundNearestEven m (roundShift m u) * 2 ^ (roundShift m u) → roundNearestEven m (roundShift m u) % 2 = 0) := by
  obtain ⟨h1, h2, h3⟩ := roundShift_bounds m u hm
  generalize hs : roundShift m u = s at *
  obtain ⟨k, j, hk, hk2, hk3⟩ := f32Units_shape y
  rcases Nat.lt_or_ge (j + u) s with hlt | hge
  · have hs2 : 8388608 * 2^s ≤ m := by rcases h3 with h3 | h3 <;> omega
    have hy2 : f32Units y * 2^u < 8388608 * 2^s := by
      rw [hk, Nat.mul_assoc, ← pow_add]
      have e : 2 * 2^(j+u) ≤ 2^s := by rw [← pow_succ']; exact Nat.pow_le_pow_right (by omega) (by omega)
      have hp : 0 < 2^(j+u) := by positivity
      calc k * 2^(j+u) < 16777216 * 2^(j+u) := Nat.mul_lt_mul_of_pos_right hk2 hp
        _ = 8388608 * (2 * 2^(j+u)) := by ring
        _ ≤ _ := Nat.mul_le_mul_left _ e
    have := (roundNearestEven_nearest m s 8388608).1
    generalize f32Units y * 2^u = Y at *
    generalize 8388608 * 2^s = Z at *
    generalize roundNearestEven m s * 2^s = W at *
    refine ⟨by omega, fun h => by omega⟩
  · have e : f32Units y * 2^u = (k * 2^(j+u-s)) * 2^s := by
      rw [hk, Nat.mul_assoc, Nat.mul_assoc, ← pow_add, ← pow_add]; congr 2; omega
    obtain ⟨r1, r2⟩ := roundNearestEven_nearest m s (k * 2^(j+u-s))
    rw [e]
    exact ⟨r1, fun h h' => r2 h (fun hh => h' (by rw [hh]))⟩

/-- The fields of a rounded value that does not overflow. -/
theorem roundPack_fields (b : Bool) (m u : Nat) (hm : 0 < m) (h : ¬ ((2 ^ 25 - 1) * 2 ^ 252 * 2 ^ u ≤ m)) :
    f32Sign (roundPack b m u) = b ∧ f32Exp (roundPack b m u) ≠ 255 ∧ f32Units (roundPack b m u) * 2^u = roundNearestEven m (roundShift m u) * 2 ^ (roundShift m u) ∧
    (roundPack b m u).toNat % 2 = roundNearestEven m (roundShift m u) % 2 := by
  rw [← roundPack_overflow_iff m u hm] at h
  obtain ⟨q1, q2⟩ := roundedSignificand_bounds m u hm
  have hs := (roundShift_bounds m u hm).1
  have e : roundPack b m u = f32SignBit b ||| BitVec.ofNat 32 ((roundShift m u - u) * 8388608 + roundNearestEven m (roundShift m u)) := if_neg h
  rw [e]
  obtain ⟨e, he⟩ : ∃ e, roundShift m u - u = e := ⟨_, rfl⟩
  rw [he] at h q2 ⊢
  have hu : roundShift m u = e + u := by omega
  rw [hu] at q1 q2 h ⊢
  generalize roundNearestEven m (e+u) = q at *
  obtain ⟨f1, f2, f3⟩ := f32_pack_fields b (e * 8388608 + q) (by omega)
  refine ⟨f1, by rw [f2]; omega, ?_, ?_⟩
  · have : f32Units (f32SignBit b ||| BitVec.ofNat 32 (e * 8388608 + q)) = magUnits (e * 8388608 + q) := by
      unfold f32Units magUnits; rw [f2, f3]
    rw [this, magUnits_eq e q q1 q2, Nat.mul_assoc, ← pow_add]
  · rw [f32_toNat, f2, f3, f1]
    split <;> omega

/-- A rounded value that overflows is the infinity of its sign (R76). -/
theorem roundPack_inf (b : Bool) (m u : Nat) (hm : 0 < m)
    (h : (2 ^ 25 - 1) * 2 ^ 252 * 2 ^ u ≤ m) : roundPack b m u = f32Inf b :=
  if_pos ((roundPack_overflow_iff m u hm).2 h)

/-- A rounded value is never a NaN. -/
theorem roundPack_notNaN (b : Bool) (m u : Nat) : f32IsNaN (roundPack b m u) = false := by
  unfold roundPack
  simp only
  split
  · cases b <;> decide
  · rename_i h
    rw [Bool.eq_false_iff, ne_eq, f32IsNaN_iff, (f32_pack_fields b _ (by omega)).2.1]
    omega

/-- Negation changes the sign and no other field. -/
theorem f32Neg_fields (x : Word) : f32Sign (f32Neg x) = !f32Sign x ∧ f32Exp (f32Neg x) = f32Exp x ∧ f32Frac (f32Neg x) = f32Frac x := by
  refine ⟨?_, ?_, ?_⟩
  · simp [f32Sign, f32Neg]
  · unfold f32Exp f32Neg
    congr 1
    apply BitVec.eq_of_getLsbD_eq; intro i hi
    simp only [BitVec.getLsbD_extractLsb', BitVec.getLsbD_xor]
    have : (0x80000000#32).getLsbD (23 + i) = false := by
      have : i = 0 ∨ i = 1 ∨ i = 2 ∨ i = 3 ∨ i = 4 ∨ i = 5 ∨ i = 6 ∨ i = 7 := by omega
      rcases this with rfl | rfl | rfl | rfl | rfl | rfl | rfl | rfl <;> rfl
    simp [this]
  · unfold f32Frac f32Neg
    congr 1
    apply BitVec.eq_of_getLsbD_eq; intro i hi
    simp only [BitVec.getLsbD_extractLsb', BitVec.getLsbD_xor]
    have : (0x80000000#32).getLsbD (0 + i) = false := by
      have : ∀ i : Fin 23, (0x80000000#32).getLsbD (0 + i.1) = false := by decide
      exact this ⟨i, hi⟩
    simp at this; simp [this]

/-- Negation negates the value. -/
theorem f32Neg_int (x : Word) : f32Int (f32Neg x) = - f32Int x := by
  obtain ⟨h1, h2, h3⟩ := f32Neg_fields x
  have : f32Units (f32Neg x) = f32Units x := by unfold f32Units; rw [h2, h3]
  unfold f32Int; rw [h1, this]; cases f32Sign x <;> simp

/-- `add32` of finite operands is one rounding of the exact sum (R76). -/
theorem add32_finite {a b : Word} (ha : f32IsNaN a = false ∧ f32IsInf a = false) (hb : f32IsNaN b = false ∧ f32IsInf b = false) :
    add32 a b =
      if f32Int a + f32Int b = 0 then f32SignBit (f32Sign a && f32Sign b)
      else roundPack (decide (f32Int a + f32Int b < 0)) (f32Int a + f32Int b).natAbs 0 := by
  simp [add32, ha.1, ha.2, hb.1, hb.2]

/-- `mul32` of finite operands is one rounding of the exact product (R76). -/
theorem mul32_finite {a b : Word} (ha : f32IsNaN a = false ∧ f32IsInf a = false) (hb : f32IsNaN b = false ∧ f32IsInf b = false) :
    mul32 a b = roundPack (f32Sign a != f32Sign b) (f32Units a * f32Units b) 149 := by
  simp [mul32, ha.1, ha.2, hb.1, hb.2]

/-- A negation keeps infinities and NaNs apart. -/
theorem f32Neg_class (x : Word) : f32IsInf (f32Neg x) = f32IsInf x ∧ f32IsNaN (f32Neg x) = f32IsNaN x := by
  obtain ⟨-, he, hf⟩ := f32Neg_fields x
  simp only [f32IsInf, f32IsNaN, he, hf, and_self]

end Sys2Proof.Machine
end

