-- ==== Sys2Proof/Laws/PerInstr.lean ====
section
/-! SUPPORT. Statements about every command as syntax, one lemma per constructor: that well-formedness is the spec's mask test. -/

namespace Sys2Proof.Laws

open Sys2Proof

/-- `USED_MASK(opc)`: the bits of `IMM` a command uses (30_encoding R66). -/
def usedMask (opc : Nat) : BitVec 24 :=
  if opc = 0x10 ∨ opc = 0x20 ∨ opc = 0x41 then 0x0000FF#24
  else if opc = 0x13 then 0x000003#24
  else if opc = 0x30 then 0x00FFFF#24
  else if opc = 0x50 then 0x000001#24
  else 0#24

/-- A field above zeros is 0 exactly when the whole is. -/
theorem append_zero_iff {m n : Nat} (x : BitVec m) : x ++ 0#n = 0#(m + n) ↔ x = 0#m := by
  constructor
  · intro h
    have e := congrArg BitVec.toNat h
    rw [append_toNat] at e
    have hp : 0 < 2 ^ n := by positivity
    apply BitVec.eq_of_toNat_eq
    simp only [BitVec.toNat_ofNat, Nat.zero_mod, Nat.add_zero] at e ⊢
    exact (Nat.mul_eq_zero.1 e).resolve_right (by omega)
  · rintro rfl
    apply BitVec.eq_of_toNat_eq
    rw [append_toNat]
    simp

/-- A command is well formed exactly when `imm & ~USED_MASK(opc)` is 0 (30_encoding R63, R66). -/
def ReservedBits.Statement (i : Instr) : Prop :=
  i.wellFormed = true ↔ i.imm &&& ~~~(usedMask i.opcode.toNat) = 0#24

/-- The two field widths under a mask of the low field: the high field is what is left. -/
theorem masked_append {m n : Nat} (x : BitVec m) (y : BitVec n) :
    (x ++ y) &&& (BitVec.allOnes m ++ 0#n) = x ++ 0#n := by
  rw [BitVec.and_append, BitVec.and_allOnes, BitVec.and_zero]

/-- The statement of a command that uses no bit of `IMM`. -/
theorem reserved_whole (r : BitVec 24) : (r == 0) = true ↔ r &&& ~~~(0#24) = 0#24 := by
  rw [beq_iff_eq, show ~~~(0#24) = BitVec.allOnes 24 by decide, BitVec.and_allOnes]
  rfl

/-- The statement of a command with a low operand of `n` bits. -/
theorem reserved_above {m n : Nat} (r : BitVec m) (y : BitVec n) (mask : BitVec (m + n))
    (h : ~~~mask = BitVec.allOnes m ++ 0#n) : (r == 0) = true ↔ (r ++ y) &&& ~~~mask = 0#(m + n) := by
  rw [h, masked_append, append_zero_iff, beq_iff_eq]
  rfl

theorem ReservedBits.nop (r : BitVec 24) : ReservedBits.Statement (.nop r) := reserved_whole r
theorem ReservedBits.capConfig (r : BitVec 16) (ch : Byte) : ReservedBits.Statement (.capConfig r ch) :=
  reserved_above r ch 0x0000FF#24 (by decide)
theorem ReservedBits.capStart (r : BitVec 24) : ReservedBits.Statement (.capStart r) := reserved_whole r
theorem ReservedBits.capStop (r : BitVec 24) : ReservedBits.Statement (.capStop r) := reserved_whole r
theorem ReservedBits.capClear (r : BitVec 22) (mask : BitVec 2) : ReservedBits.Statement (.capClear r mask) :=
  reserved_above r mask 0x000003#24 (by decide)
theorem ReservedBits.dsConfig (r : BitVec 16) (q : Byte) : ReservedBits.Statement (.dsConfig r q) :=
  reserved_above r q 0x0000FF#24 (by decide)
theorem ReservedBits.dsUpdate (r : BitVec 24) : ReservedBits.Statement (.dsUpdate r) := reserved_whole r
theorem ReservedBits.dsGet (r : BitVec 24) : ReservedBits.Statement (.dsGet r) := reserved_whole r
theorem ReservedBits.cmpEncode (r : BitVec 8) (x : Half) : ReservedBits.Statement (.cmpEncode r x) :=
  reserved_above r x 0x00FFFF#24 (by decide)
theorem ReservedBits.cmpEncodeF (r : BitVec 24) : ReservedBits.Statement (.cmpEncodeF r) := reserved_whole r
theorem ReservedBits.ringReset (r : BitVec 24) : ReservedBits.Statement (.ringReset r) := reserved_whole r
theorem ReservedBits.ringAppend (r : BitVec 16) (b : Byte) : ReservedBits.Statement (.ringAppend r b) :=
  reserved_above r b 0x0000FF#24 (by decide)
theorem ReservedBits.ringDrain (r : BitVec 24) : ReservedBits.Statement (.ringDrain r) := reserved_whole r
theorem ReservedBits.pipeHalf (r : BitVec 23) (h : BitVec 1) : ReservedBits.Statement (.pipeHalf r h) :=
  reserved_above r h 0x000001#24 (by decide)

end Sys2Proof.Laws
end

