-- ==== Sys2Proof/Laws/Pipeline.lean ====
section
/-! SUPPORT. The loop of PIPE_HALF (44_pipeline_control R147): what one turn and the whole loop leave unchanged, and how the ring,
the counter and the number of codes move. -/

namespace Sys2Proof.Machine

open Sys2Proof

/-- One turn changes the decimator, the ring and the draw counter, and leaves READY 0. -/
theorem pipePair_frame (cell : Nat) (s : State) : (pipePair cell s).1 =
    { s with
      delay := (pipePair cell s).1.delay, count := (pipePair cell s).1.count, ready := false,
      sample := (pipePair cell s).1.sample, fill := (pipePair cell s).1.fill, pos := (pipePair cell s).1.pos,
      ovfCount := (pipePair cell s).1.ovfCount, ovfLatch := (pipePair cell s).1.ovfLatch,
      ringMem := (pipePair cell s).1.ringMem, draws := s.draws + 4 } := by
  unfold pipePair takeReady
  split
  · unfold appendCore
    split <;> rfl
  · rename_i h
    simp only [Bool.not_eq_true] at h
    simp only [dsUpdateCore, State.mk.injEq, and_true, true_and] at h ⊢
    exact h

theorem pipePair_ready (cell : Nat) (s : State) : (pipePair cell s).1.ready = false := by
  rw [pipePair_frame]

theorem pipePair_params (cell : Nat) (s : State) : (pipePair cell s).1.params = s.params := by
  rw [pipePair_frame]

theorem pipePair_ratio (cell : Nat) (s : State) : (pipePair cell s).1.ratio = s.ratio := by
  rw [pipePair_frame]

theorem pipePairs_succ (n cell : Nat) (s : State) :
    (pipePairs (n + 1) cell s).1 = (pipePairs n (cell + 2) (pipePair cell s).1).1 := rfl

/-- The whole loop changes the decimator, the ring and the draw counter. -/
theorem pipePairs_frame (n : Nat) : ∀ (cell : Nat) (s : State), (pipePairs n cell s).1 =
    { s with
      delay := (pipePairs n cell s).1.delay, count := (pipePairs n cell s).1.count, ready := (pipePairs n cell s).1.ready,
      sample := (pipePairs n cell s).1.sample, fill := (pipePairs n cell s).1.fill, pos := (pipePairs n cell s).1.pos,
      ovfCount := (pipePairs n cell s).1.ovfCount, ovfLatch := (pipePairs n cell s).1.ovfLatch,
      ringMem := (pipePairs n cell s).1.ringMem, draws := s.draws + 4 * n } := by
  induction n with
  | zero => intro cell s; rfl
  | succ n ih =>
    intro cell s
    simp only [pipePairs]
    rw [ih, pipePair_frame]
    simp only [show s.draws + 4 + 4 * n = s.draws + 4 * (n + 1) by omega]

/-- A loop of at least one turn leaves READY 0. -/
theorem pipePairs_ready (n cell : Nat) (s : State) : (pipePairs (n + 1) cell s).1.ready = false := by
  induction n generalizing cell s with
  | zero => rw [pipePairs_succ]; exact pipePair_ready cell s
  | succ n ih => rw [pipePairs_succ]; exact ih _ _

/-- One turn appends no code, or one at the current slot byte. -/
theorem pipePair_append (cell : Nat) (s : State) (a : Nat) :
    ((pipePair cell s).2 = 0 ∧ (pipePair cell s).1.ringMem = s.ringMem ∧ (pipePair cell s).1.fill = s.fill ∧
      (pipePair cell s).1.pos = s.pos) ∨
    ((pipePair cell s).2 = 1 ∧
      (a ≠ slotAddr s.params s.fill.toNat s.pos.toNat → (pipePair cell s).1.ringMem.read a = s.ringMem.read a) ∧
      (pipePair cell s).1.fill = (if s.pos.toNat + 1 = s.params.slotSize then nextSlot s.params s.fill else s.fill) ∧
      (pipePair cell s).1.pos =
        (if s.pos.toNat + 1 = s.params.slotSize then 0 else BitVec.ofNat 16 (s.pos.toNat + 1))) := by
  unfold pipePair takeReady
  split
  · right
    refine ⟨rfl, ?_, ?_, ?_⟩
    · intro h
      simp only [appendCore_ringMem]
      rw [memory_read_write_other]
      · rfl
      · exact h
    · unfold appendCore
      split <;> simp_all
    · unfold appendCore
      split <;> simp_all
  · exact .inl ⟨rfl, rfl, rfl, rfl⟩

/-- A turn appends at most one code. -/
theorem pipePair_le (cell : Nat) (s : State) : (pipePair cell s).2 ≤ 1 := by
  unfold pipePair takeReady
  split <;> simp

/-- A loop appends at most one code a turn. -/
theorem pipePairs_le (n cell : Nat) (s : State) : (pipePairs n cell s).2 ≤ n := by
  induction n generalizing cell s with
  | zero => simp [pipePairs]
  | succ n ih =>
    simp only [pipePairs]
    have := ih (cell + 2) (pipePair cell s).1
    have := pipePair_le cell s
    omega

/-- The even cell of a pair is the low half of its word (20_memory R46). -/
theorem pairWord_toNat (cell : Nat) (s : State) :
    (pairWord cell s).toNat =
      (s.capMem.fetch (cellAddr cell) s.draws).toNat + 256 * (s.capMem.fetch (cellAddr cell + 1) (s.draws + 1)).toNat +
        65536 * (s.capMem.fetch (cellAddr cell + 2) (s.draws + 2)).toNat +
        16777216 * (s.capMem.fetch (cellAddr cell + 3) (s.draws + 3)).toNat :=
  fetchWord_toNat _ _ _

/-- An append neither reads nor writes the capture storage and the draw counter. -/
theorem appendCore_capture (b : Byte) (s : State) (n : Nat) (m : Memory) :
    appendCore b { s with draws := n, capMem := m } = { appendCore b s with draws := n, capMem := m } := by
  by_cases h : s.pos.toNat + 1 = s.params.slotSize
  · rw [show appendCore b s = _ from if_pos h]
    exact if_pos h
  · rw [show appendCore b s = _ from if_neg h]
    exact if_neg h

/-- Neither does the tail of a turn. -/
theorem takeReady_capture (s : State) (n : Nat) (m : Memory) :
    takeReady { s with draws := n, capMem := m } =
      ({ (takeReady s).1 with draws := n, capMem := m }, (takeReady s).2) := by
  by_cases h : s.ready = true
  · simp only [takeReady, h, if_true]
    exact congrArg (·, 1) (appendCore_capture _ (dsGetCore s) n m)
  · simp only [takeReady, h, if_false, Bool.false_eq_true]

/-- A turn reads of the capture storage and the draw counter its pair's word, and nothing else. -/
theorem pipePair_capture {cell n : Nat} {m : Memory} {s : State}
    (h : m.fetchWord (cellAddr cell) n = s.capMem.fetchWord (cellAddr cell) s.draws) :
    pipePair cell { s with draws := n, capMem := m } =
      ({ (pipePair cell s).1 with draws := n + 4, capMem := m }, (pipePair cell s).2) := by
  have hw : pairWord cell { s with draws := n, capMem := m } = pairWord cell s := h
  simp only [pipePair, hw]
  exact takeReady_capture (dsUpdateCore _ { s with draws := s.draws + 4 }) (n + 4) m

/-- The loop reads of the capture storage and the draw counter only the bytes of its pairs: with those written, it does the same
from any draw number and any storage that agrees on them. -/
theorem pipePairs_capture (k : Nat) : ∀ {cell n : Nat} {m : Memory} {s : State},
    (∀ i, i < 4 * k → m.read (cellAddr cell + i) = s.capMem.read (cellAddr cell + i)) →
    (∀ i, i < 4 * k → (s.capMem.read (cellAddr cell + i)).isSome = true) →
    pipePairs k cell { s with draws := n, capMem := m } =
      ({ (pipePairs k cell s).1 with draws := n + 4 * k, capMem := m }, (pipePairs k cell s).2) := by
  induction k with
  | zero => intros; rfl
  | succ k ih =>
    intro cell n m s h hw
    have hcell : cellAddr (cell + 2) = cellAddr cell + 4 := by
      unfold cellAddr
      omega
    have hc : (pipePair cell s).1.capMem = s.capMem := by rw [pipePair_frame]
    have turn := pipePair_capture (memory_fetchWord_written (fun j hj => h j (by omega)) (fun j hj => hw j (by omega)) s.draws n)
    simp only [pipePairs]
    rw [turn, ih (fun i hi => by rw [hcell, hc, Nat.add_assoc]; exact h _ (by omega))
      (fun i hi => by rw [hcell, hc, Nat.add_assoc]; exact hw _ (by omega))]
    simp only [show n + 4 + 4 * k = n + 4 * (k + 1) by omega]

/-- PIPE_HALF of a valid half with both units configured runs its loop (44_pipeline_control R147). -/
theorem execPipeHalf_runs {s : State} {h : BitVec 1} (hc : s.capCfg = true) (hd : s.dsCfg = true)
    (hv : s.halfValid (halfOperand h) = true) :
    execPipeHalf 0 h s =
      .next ((pipeHalf (halfOperand h) s).1.completeWith (BitVec.ofNat 32 (pipeHalf (halfOperand h) s).2)) := by
  simp [execPipeHalf, hc, hd, hv]

end Sys2Proof.Machine
end

