-- ==== Sys2Proof/Laws/Steps.lean ====
section
/-! SUPPORT. What one step can do, said once: the event at the head of the schedule and the state it leaves, or the engine's own
tick. -/

namespace Sys2Proof.Machine

open Sys2Proof

/-- The state after a read (20_memory R52). -/
theorem busRead_next {off size : Nat} {s t : State} (h : busRead off size s = .next t) :
    off < 0x4000 ∧ size = 4 ∧ off % 4 = 0 ∧
      t = { s with readData := busWord s off, draws := if 0x1000 ≤ off then s.draws + 4 else s.draws } := by
  simp only [busRead] at h
  split at h
  · cases h
  · split at h
    · cases h
    · cases h
      rename_i hlt hleg
      simp only [accessLegal, Bool.not_eq_true', Bool.not_eq_false, Bool.and_eq_true, beq_iff_eq] at hleg
      exact ⟨by omega, hleg.1, hleg.2, rfl⟩

/-- The state after a write of a command word (30_encoding R66). -/
theorem issue_next {w : Word} {s t : State} (h : issue w s = .next t) :
    (∃ i, decode w = .ok i ∧ exec i s = .next t) ∨ t = s.raise .badOpcode := by
  simp only [issue] at h
  split at h
  · exact .inl ⟨_, ‹_›, h⟩
  · cases h
    exact .inr rfl

/-- The state after a write (20_memory R51). -/
theorem busWrite_next {off size : Nat} {w : Word} {s t : State} (h : busWrite off size w s = .next t) :
    issue w s = .next t ∨ t = { s with arg := w } ∨ t = s := by
  simp only [busWrite] at h
  repeat' split at h
  all_goals first | exact .inl h | (cases h; exact .inr (.inl rfl)) | (cases h; exact .inr (.inr rfl)) | cases h

/-- Everything a step that answers a next state can have done. The state `u` is the state without the event. -/
theorem step_next {s t : State} (h : step s = .next t) :
    t = idle s ∨ ∃ rest, let u := { s with schedule := rest }
      (∃ off, t = { u with readData := busWord u off, draws := if 0x1000 ≤ off then u.draws + 4 else u.draws }) ∨
      (∃ i, exec i u = .next t) ∨ t = u.raise .badOpcode ∨ (∃ w, t = { u with arg := w }) ∨ t = u ∨
      (∃ a b, t = scheduledTick a b u) ∨ t = resetBlock u := by
  simp only [step] at h
  split at h
  · cases h
    exact .inl rfl
  · rename_i e rest _
    refine .inr ⟨rest, ?_⟩
    cases e <;> simp only [runEvent] at h
    · exact .inl ⟨_, (busRead_next h).2.2.2⟩
    · rcases busWrite_next h with h | h | h
      · rcases issue_next h with ⟨i, -, h⟩ | h
        · exact .inr (.inl ⟨i, h⟩)
        · exact .inr (.inr (.inl h))
      · exact .inr (.inr (.inr (.inl ⟨_, h⟩)))
      · exact .inr (.inr (.inr (.inr (.inl h))))
    · cases h
      exact .inr (.inr (.inr (.inr (.inr (.inl ⟨_, _, rfl⟩)))))
    · cases h
      exact .inr (.inr (.inr (.inr (.inr (.inr rfl)))))

end Sys2Proof.Machine
end

