-- ==== Sys2Proof/Tests/Slice0.lean ====
section
/-! SUPPORT. The model's own tests: smoke tests of the well-formedness check and of decoding, one or two single-step tests for each
command against spec/95_test_vectors, and one witness for the hypotheses of each statement. -/

namespace Sys2Proof.Tests

open Sys2Proof Sys2Proof.Machine Sys2Proof.Statements

/-! ## Helpers -/

/-- The reset state with the example parameters of 95_test_vectors part 2. -/
def z : State := State.resetWith Config.exampleParams

/-- The next state of an outcome, if it is one. -/
def nextOf (o : Host.Outcome State Fault Refusal) : Option State :=
  match o with
  | .next t => some t
  | _ => none

/-- The fault of an outcome, if it is one. -/
def faultOf (o : Host.Outcome State Fault Refusal) : Option Fault :=
  match o with
  | .fault f => some f
  | _ => none

/-- One field of the state after the step that writes the command word `w`. -/
def afterWord {α : Type} (w : Nat) (s : State) (f : State → α) : Option α := (nextOf (step (s.withFetchWord 32 w))).map f

/-- What a 32-bit read at `off` returns. -/
def reads (off : Nat) (s : State) : Option Word :=
  (nextOf (step { s with schedule := [.read off 4] })).map (fun t => t.readData)

/-- CAP_CONFIG with LEN 8 has run (CP-1), and CAP_START 1000. -/
def cap8 : State := { z with channel := 1, len := 8, capCfg := true, rate := 1000, run := true, arg := 1000 }

/-- The first four ticks of CP-1. -/
def cap8After4 : State := ticks [(0x101, 0x201), (0x102, 0x202), (0x103, 0x203), (0x104, 0x204)] cap8

/-- DS_CONFIG 5 has run (F-1). -/
def ds5 : State := { z with ratio := 5, dsCfg := true }

/-- P3 up to its first PIPE_HALF: LEN 20, ratio 5, five ticks with draws 3072. -/
def half20 : State :=
  ticks (List.replicate 5 (3072, 3072))
    { z with len := 20, capCfg := true, rate := 8000, run := true, ratio := 5, dsCfg := true }

/-- LEN 4 with half 0 captured, and a decimator: the least state in which PIPE_HALF runs. -/
def half4 : State :=
  tick 2048 2048 { z with len := 4, capCfg := true, rate := 1, run := true, ratio := 5, dsCfg := true }

/-- The invariants of a state of numerals, as one check. -/
theorem inv_of_check {s : State}
    (h : (decide s.params.Wf && decide s.CaptureInv && decide s.DecimatorInv && decide s.RingInv) = true) : s.Inv := by
  simp only [Bool.and_eq_true, decide_eq_true_eq] at h
  exact ⟨h.1.1.1, h.1.1.2, h.1.2, h.2⟩

/-- An outcome that is a next state with a checked property. -/
theorem next_of_check {o : Host.Outcome State Fault Refusal} {P : State → Prop} [DecidablePred P]
    (h : (nextOf o).any (fun t => decide (P t)) = true) : ∃ t, o = .next t ∧ P t := by
  cases o with
  | next t => exact ⟨t, rfl, of_decide_eq_true h⟩
  | _ => cases h

/-! ## Well-formedness: an ill-formed term for each check (30_encoding R62, R63) -/

theorem test_wellFormed_refuses_reserved_bits :
    (Instr.nop 1).wellFormed = false ∧ (Instr.capConfig 1 3).wellFormed = false ∧ (Instr.capStart 1).wellFormed = false ∧
    (Instr.capStop 1).wellFormed = false ∧ (Instr.capClear 1 3).wellFormed = false ∧ (Instr.dsConfig 1 10).wellFormed = false ∧
    (Instr.dsUpdate 1).wellFormed = false ∧ (Instr.dsGet 1).wellFormed = false ∧ (Instr.cmpEncode 1 0xFFFF).wellFormed = false ∧
    (Instr.cmpEncodeF 1).wellFormed = false ∧ (Instr.ringReset 1).wellFormed = false ∧
    (Instr.ringAppend 1 0xAB).wellFormed = false ∧ (Instr.ringDrain 1).wellFormed = false ∧
    (Instr.pipeHalf 1 1).wellFormed = false := by decide

theorem test_wellFormed_takes_any_operand :
    (Instr.capConfig 0 0xFF).wellFormed = true ∧ (Instr.capClear 0 3).wellFormed = true ∧
    (Instr.cmpEncode 0 0x8000).wellFormed = true ∧ (Instr.pipeHalf 0 1).wellFormed = true := by decide

/-! ## Decoding: one written-out word for each constructor (30_encoding R60, R64, R69; 95_test_vectors E-1) -/

theorem test_decode_nop : decode 0x00000000#32 = .ok (.nop 0) := by decide
theorem test_decode_capConfig : decode 0x10000003#32 = .ok (.capConfig 0 3) := by decide
theorem test_decode_capStart : decode 0x11000000#32 = .ok (.capStart 0) := by decide
theorem test_decode_capStop : decode 0x12000000#32 = .ok (.capStop 0) := by decide
theorem test_decode_capClear : decode 0x13000003#32 = .ok (.capClear 0 3) := by decide
theorem test_decode_dsConfig : decode 0x2000000A#32 = .ok (.dsConfig 0 10) := by decide
theorem test_decode_dsUpdate : decode 0x21000000#32 = .ok (.dsUpdate 0) := by decide
theorem test_decode_dsGet : decode 0x22000000#32 = .ok (.dsGet 0) := by decide
theorem test_decode_cmpEncode : decode 0x30008000#32 = .ok (.cmpEncode 0 0x8000) := by decide
theorem test_decode_cmpEncodeF : decode 0x31000000#32 = .ok (.cmpEncodeF 0) := by decide
theorem test_decode_ringReset : decode 0x40000000#32 = .ok (.ringReset 0) := by decide
theorem test_decode_ringAppend : decode 0x410000AB#32 = .ok (.ringAppend 0 0xAB) := by decide
theorem test_decode_ringDrain : decode 0x42000000#32 = .ok (.ringDrain 0) := by decide
theorem test_decode_pipeHalf : decode 0x50000001#32 = .ok (.pipeHalf 0 1) := by decide

/-- E-2: a reserved bit decodes to its command (the status is the command's), a reserved opcode does not decode. -/
theorem test_decode_reserved :
    decode 0x13000004#32 = .ok (.capClear 1 0) ∧ decode 0x30010000#32 = .ok (.cmpEncode 1 0) ∧
    decode 0x50000002#32 = .ok (.pipeHalf 1 0) ∧ decode 0xFF000000#32 = .error (.reservedOpcode 0xFF) ∧
    decode 0x01000000#32 = .error (.reservedOpcode 0x01) ∧ decode 0x5F000000#32 = .error (.reservedOpcode 0x5F) := by decide

/-- The table's numbering of a word is the word itself. -/
theorem test_decodeTableWord :
    decodeTableWord 32 0x410000AB = some (.ringAppend 0 0xAB) ∧ decodeTableWord 32 0x43000000 = none := by decide

/-- E-2 from the reset state of this block, whatever its parameters: NOP with IMM bit 0 is its first command. -/
theorem test_withFetchWord_runs_first :
    ((nextOf (step (State.reset.withFetchWord 32 1))).map (fun t => t.lastStatus)) = some .badOperand ∧
    ((nextOf (step (State.reset.withFetchWord 32 0xFF000000))).map (fun t => t.lastStatus)) = some .badOpcode := by decide

/-! ## Commands, one step each -/

/-- E-5. -/
theorem test_nop_resets_the_status : afterWord 0x00000000 { z with lastStatus := .badState } statusWord = some 0#32 := by decide

/-- CP-4: the largest length and the largest channel are legal. -/
theorem test_capConfig_takes_the_largest_operands :
    afterWord 0x10000007 { z with arg := 2048 } (fun t => (statusWord t, t.len, t.channel)) = some (8#32, 2048#32, 7#8) := by decide

/-- E-3: operands are checked before the state; a legal one while running is BAD_STATE. -/
theorem test_capConfig_precedence :
    afterWord 0x10000009 { cap8 with arg := 6 } (fun t => t.lastStatus) = some .badOperand ∧
    afterWord 0x10000003 { cap8 with arg := 20 } (fun t => (t.lastStatus, t.len)) = some (.badState, 8#32) := by decide

/-- CP-4: RATE_MAX is legal, one more is not. -/
theorem test_capStart_rate_limit :
    afterWord 0x11000000 { cap8 with run := false, arg := 100000 } (fun t => (t.rate, t.run)) = some (100000#32, true) ∧
    afterWord 0x11000000 { cap8 with run := false, arg := 100001 } (fun t => (t.lastStatus, t.run)) = some (.badOperand, false) :=
  by decide

/-- CP-3: after tick 3, CAP_STOP retains WIDX, HT and the cells. -/
theorem test_capStop_retains :
    afterWord 0x12000000 (ticks [(0x101, 0x201), (0x102, 0x202), (0x103, 0x203)] cap8)
      (fun t => (statusWord t, t.widx, t.capCell 5)) = some (9#32, 6#32, some 0x203#16) := by decide

/-- CP-2. -/
theorem test_capClear_clears_what_it_names :
    afterWord 0x13000001 cap8After4 (fun t => (t.ht, t.tc)) = some (false, true) ∧
    afterWord 0x13000000 cap8After4 (fun t => (t.ht, t.tc)) = some (true, true) := by decide

/-- CP-1, ticks 2 and 4: HT at half, TC and the wrap at the end. -/
theorem test_tick_flags :
    (fun t : State => (t.widx, t.ht, t.tc, t.halfValid0, t.halfValid1)) (ticks [(0x101, 0x201), (0x102, 0x202)] cap8) =
      (4#32, true, false, true, false) ∧
    (fun t : State => (t.widx, t.ht, t.tc, t.halfValid0, t.halfValid1)) cap8After4 = (0#32, true, true, true, true) := by decide

/-- M-1 after DS_CONFIG 5, and P4's ratio 7. -/
theorem test_dsConfig_ratio :
    afterWord 0x20000005 z (fun t => (statusWord t, reads 0x2C t)) = some (0x10#32, some 1#32) ∧
    afterWord 0x20000007 z (fun t => (t.lastStatus, t.dsCfg)) = some (.badOperand, false) := by decide

/-- F-1, update 1. -/
theorem test_dsUpdate_first :
    afterWord 0x21000000 { ds5 with arg := 0x3F000000 } (fun t => (t.result, t.delay.head?, t.count, t.ready)) =
      some (0x3D800000#32, some ⟨0x3E800000, 0⟩, 1#8, false) := by decide +kernel

/-- F-1, update 5: it completes a cycle. -/
theorem test_dsUpdate_completes_a_cycle :
    afterWord 0x21000000
      { ds5 with arg := 0x3F000000, count := 4, delay := ⟨0x3EF00000, 0x3EE00000⟩ :: List.replicate 15 ⟨0, 0⟩ }
      (fun t => (t.result, t.sample, t.delay.head?, t.count, t.ready)) =
      some (0x3EEE0000#32, 0x3EEE0000#32, some ⟨0x3EF80000, 0x3EF00000⟩, 0#8, true) := by decide +kernel

/-- P2's DS_GET, and E-2's. -/
theorem test_dsGet :
    afterWord 0x22000000 { ds5 with sample := 0x3EEE0000, ready := true } (fun t => (t.result, t.ready)) =
      some (0x3EEE0000#32, false) ∧
    afterWord 0x22000000 z statusWord = some 0x300#32 := by decide

/-- E-1 and C-1. -/
theorem test_cmpEncode :
    afterWord 0x3000FFFF z (fun t => t.result) = some 0x80#32 ∧ afterWord 0x30008000 z (fun t => t.result) = some 0xFF#32 ∧
    afterWord 0x30003B7F z (fun t => t.result) = some 0x6E#32 := by decide

/-- C-1: the samples 4 and -4 differ in the sign only. -/
theorem test_cmpEncode_mantissa :
    afterWord 0x30000004 z (fun t => t.result) = some 0x01#32 ∧ afterWord 0x3000FFFC z (fun t => t.result) = some 0x81#32 := by
  decide

/-- C-3. -/
theorem test_cmpEncodeF :
    afterWord 0x31000000 { z with arg := 0xBEEE0000 } (fun t => t.result) = some 0xEE#32 ∧
    afterWord 0x31000000 { z with arg := 0x7FC00000 } (fun t => t.result) = some 0#32 ∧
    afterWord 0x31000000 { z with arg := 0xFF800000 } (fun t => t.result) = some 0xFF#32 := by decide

/-- C-2. -/
theorem test_decodeCode : decodeCode 0x55 = 5372 ∧ decodeCode 0xAA = -716 ∧ decodeCode 0x80 = 0 ∧ decodeCode 0xFF = -32124 := by
  decide

/-- RG-4: the indices go to 0, the storage stays. -/
theorem test_ringReset_keeps_storage :
    afterWord 0x40000000 { z with fill := 1, ovfCount := 1, ringMem := [(0x2000, 0x0D)] }
      (fun t => (statusWord t, t.ovfCount, t.ringByte 0 0)) = some (0#32, 0#32, some 0x0D#8) := by decide

/-- RG-1, append 12: the overflow event. -/
theorem test_ringAppend_overflow :
    afterWord 0x4100000C { z with fill := 2, pos := 3 }
      (fun t => (t.fill, t.pos, t.ovfCount, statusWord t, t.ringByte 2 3)) =
      some (0#8, 0#16, 1#32, 0x80#32, some 0x0C#8) := by decide

/-- RG-1, append 16: the next advance clears the latch. -/
theorem test_ringAppend_clears_the_latch :
    afterWord 0x41000010 { z with pos := 3, ovfCount := 1, ovfLatch := true } (fun t => (t.fill, t.ovfCount, statusWord t)) =
      some (1#8, 1#32, 0x40#32) := by decide

/-- P1: a drain, and a drain with nothing pending. -/
theorem test_ringDrain :
    afterWord 0x42000000 { z with fill := 1 } (fun t => (t.drain, statusWord t)) = some (1#8, 0#32) ∧
    afterWord 0x42000000 { z with fill := 1, drain := 1 } statusWord = some 0x300#32 := by decide

/-- P3, the first PIPE_HALF: one code, 0x6E. -/
theorem test_pipeHalf_runs :
    afterWord 0x50000000 half20 (fun t => (t.result, t.pos, t.ringByte 0 0, t.ready, t.sample)) =
      some (1#32, 1#16, some 0x6E#8, false, 0x3EEE0000#32) := by decide +kernel

/-- PL-2: half 1 was never completed; a reserved bit comes before that check. -/
theorem test_pipeHalf_hazard :
    faultOf (step (half20.withFetchWord 32 0x50000001)) = some .captureHazard ∧
    afterWord 0x50000002 half20 (fun t => t.lastStatus) = some .badOperand := by decide

/-! ## The bus -/

/-- M-1. -/
theorem test_register_reads :
    reads 0x0C z = some 0#32 ∧ reads 0x40 z = some 0x00030004#32 ∧ reads 0x44 z = some 0x100C0800#32 ∧ reads 0x2C z = some 0#32 := by
  decide

/-- M-2: a write of a read-only register is ignored, of ARG is not. -/
theorem test_writes :
    (nextOf (step { z with result := 7, schedule := [.write 8 4 5] })).map (fun t => t.result) = some 7#32 ∧
    (nextOf (step { z with schedule := [.write 4 4 5] })).map (fun t => t.arg) = some 5#32 := by decide

/-- M-3. -/
theorem test_bus_errors :
    faultOf (step { z with schedule := [.write 0 2 0] }) = some .busError ∧
    faultOf (step { z with schedule := [.read 6 4] }) = some .busError ∧
    faultOf (step { z with schedule := [.read 0x2001 1] }) = some .busError := by decide

/-- M-4 with CP-1's last row, and M-5. -/
theorem test_windows :
    reads 0x1000 (ticks [(0x105, 0x205), (0x106, 0x206), (0x107, 0x207), (0x108, 0x208), (0x109, 0x209)] cap8After4) =
      some 0x02090109#32 ∧
    reads 0x2000 { z with ringMem := [(0x2000, 0x11), (0x2001, 0x22), (0x2002, 0x33), (0x2003, 0x44)] } = some 0x44332211#32 ∧
    reads 0x200C z = some 0#32 ∧ reads 0x3FFC z = some 0#32 := by decide

/-- An address outside the window is not the block's (20_memory R41); BASE only places the block. -/
theorem test_outside :
    nextOf (step { z with schedule := [.read 0x4000 4] }) = none ∧
    writeAt { Config.exampleParams with base := 0x40000000 } 0x40000004 4 9 = some (.write 4 4 9) ∧
    readAt { Config.exampleParams with base := 0x40000000 } 0x3FFFFFFF 4 = none := by decide

/-! ## Arithmetic (40_filter_downsampler R76, R77) -/

/-- Hand calculation: 0.5 + 0.25, the least subnormal halved (a tie to even, 0), the largest number doubled. -/
theorem test_float :
    add32 0x3F000000 0x3E800000 = 0x3F400000#32 ∧ mul32 0x00000001 0x3F000000 = 0#32 ∧
    add32 0x7F7FFFFF 0x7F7FFFFF = 0x7F800000#32 ∧ sub32 0x7F800000 0x7F800000 = 0x7FC00000#32 := by decide

/-- F-5: an infinite input through the gain, and what follows it. -/
theorem test_float_infinity :
    mul32 0x3F000000 0x7F800000 = 0x7F800000#32 ∧ mul32 0x3F000000 0xFF800000 = 0xFF800000#32 ∧
    sub32 0xFF800000 0 = 0xFF800000#32 ∧ sub32 0 0x7F800000 = 0xFF800000#32 ∧ mul32 0 0x7F800000 = 0x7FC00000#32 := by decide

/-! ## Witnesses: a state and operands that meet the hypotheses of each statement, at the ends of their ranges -/

/-- A configured, running block between ticks, with a decimator: it meets every invariant. -/
theorem witness_invariants : half4.Inv ∧ half4.StorageInv ∧ half4.CapturedInv ∧ half4.CodesInv :=
  ⟨inv_of_check (by decide), by decide, by decide, by decide⟩

theorem witness_EncodeOfDecodeIsTheWord : decode 0x410000AB#32 = .ok (.ringAppend 0 0xAB) ∧ decode 0x50FFFFFF#32 = .ok (.pipeHalf 0x7FFFFF 1) := by
  decide

theorem witness_CmdWriteStepExecutesTheDecodedCommand :
    (z.withFetchWord 32 0x40000000).schedule = .write 0x0000 4 0x40000000#32 :: [] ∧ decode 0x40000000#32 = .ok (.ringReset 0) := by
  decide

theorem witness_ReservedOpcodeEndsWithBadOpcode :
    (z.withFetchWord 32 0xFF000000).schedule = .write 0x0000 4 0xFF000000#32 :: [] ∧
    (0xFF000000#32).toNat / 2 ^ 24 ∉ definedOpcodes ∧ (0x01FFFFFF#32).toNat / 2 ^ 24 ∉ definedOpcodes := by decide

theorem witness_WritesReachOnlyCmdAndArg :
    { z with schedule := [.write 0x3FFC 4 5] }.schedule = .write 0x3FFC 4 5 :: [] ∧ 0x3FFC < 0x4000 ∧ 0x3FFC % 4 = 0 ∧
    { z with schedule := [.write 0x0004 4 5] }.schedule = .write 0x0004 4 5 :: [] ∧ 0x0004 % 4 = 0 := by decide

theorem witness_MalformedAccessIsABusError :
    (0x0000 < 0x4000 ∧ (2 ≠ 4 ∨ 0x0000 % 4 ≠ 0)) ∧ (0x3FFF < 0x4000 ∧ (4 ≠ 4 ∨ 0x3FFF % 4 ≠ 0)) ∧
    (0x3FFC < 0x4000 ∧ (8 ≠ 4 ∨ 0x3FFC % 4 ≠ 0)) := by decide

theorem witness_RegisterReadsReturnTheirElement :
    { cap8 with schedule := [.read 0x14 4] }.schedule = .read 0x14 4 :: [] ∧
    (0x14, 8#32) ∈ registerMap { cap8 with schedule := [.read 0x14 4] } ∧
    (0x00, 0#32) ∈ registerMap { cap8 with schedule := [.read 0x00 4] } ∧
    (0x3C, 9#32) ∈ registerMap { z with ovfCount := 9, schedule := [.read 0x3C 4] } := by decide

theorem witness_ParameterRegistersReadTheirFields :
    Config.exampleParams.Wf ∧ { Config.exampleParams with ringN := 255, slotSize := 32 }.Wf ∧
    { Config.exampleParams with ringN := 2, slotSize := 4096 }.Wf := by decide

theorem witness_FstateWindowShowsDelayRegisters :
    z.delay[0]? = some (⟨0, 0⟩ : Delay) ∧ z.delay[15]? = some (⟨0, 0⟩ : Delay) ∧
    ds5.Inv ∧ ds5.coef.sections.length ≤ 1 ∧ ds5.coef.sections.length ≤ 15 :=
  ⟨by decide, by decide, inv_of_check (by decide), by decide, by decide⟩

theorem witness_CaptureWindowShowsPairs :
    { cap8After4 with schedule := [.read (0x1000 + 4 * 0) 4] }.capCell (2 * 0) = some 0x101#16 ∧
    { cap8After4 with schedule := [.read (0x1000 + 4 * 0) 4] }.capCell (2 * 0 + 1) = some 0x201#16 ∧
    { z with capMem := [(0x1FFC, 1), (0x1FFD, 2), (0x1FFE, 3), (0x1FFF, 4)] }.capCell (2 * 1023) = some 0x201#16 ∧
    { z with capMem := [(0x1FFC, 1), (0x1FFD, 2), (0x1FFE, 3), (0x1FFF, 4)] }.capCell (2 * 1023 + 1) = some 0x403#16 := by decide

/-- The last word inside the stored bytes, whole and with only one byte written, and the first and the last word past them. -/
theorem witness_RingWindowShowsSlotBytes :
    z.params.Wf ∧ 4 * 2 < z.params.ringN * z.params.slotSize ∧
    { z with ringMem := [(0x2008, 1), (0x2009, 2), (0x200A, 3), (0x200B, 4)] }.ringByte (4 * 2 / 4) (4 * 2 % 4) = some 1#8 ∧
    { z with ringMem := [(0x200B, 4)] }.ringByte (4 * 2 / 4) (4 * 2 % 4 + 3) = some 4#8 ∧
    { z with ringMem := [(0x200B, 4)] }.ringByte (4 * 2 / 4) (4 * 2 % 4 + 2) = none ∧
    z.params.ringN * z.params.slotSize ≤ 4 * 3 ∧ z.params.ringN * z.params.slotSize ≤ 4 * 2047 := by decide

theorem witness_ReservedOffsetsReadZeroAndIgnoreWrites :
    reservedOffset 0x48 ∧ reservedOffset 0xFC ∧ reservedOffset 0x180 ∧ reservedOffset 0xFFC ∧ 0x48 % 4 = 0 ∧ 0xFFC % 4 = 0 := by
  decide

/-- A register, a written capture word, a written ring word, and the first word past the stored bytes. -/
theorem witness_ReadsHaveNoSideEffect :
    (∃ t, step { cap8 with schedule := [.read 0x0C 4, .read 0x0C 4] } = .next t) ∧ readsNoDraw cap8 0x0C ∧
    (∃ t, step { cap8After4 with schedule := [.read 0x100C 4, .read 0x100C 4] } = .next t) ∧ readsNoDraw cap8After4 0x100C ∧
    readsNoDraw { z with ringMem := [(0x2000, 1), (0x2001, 2), (0x2002, 3), (0x2003, 4)] } 0x2000 ∧ readsNoDraw z 0x200C := by
  refine ⟨⟨_, rfl⟩, .inl (by decide), ⟨_, rfl⟩, .inr (.inl (by decide)), .inr (.inr (.inl (by decide))), .inr (.inr (.inr (by decide)))⟩

/-- The last cell, even and odd, the last bytes of a ring word, and a byte beside a written one. -/
theorem witness_UnwrittenStorageReadsAsFreeValues :
    z.capMem.read (0x1000 + 4 * 1023 + 3) = none ∧ z.capMem.read (0x1000 + 2 * (2 * 1023 + 1)) = none ∧
    z.capMem.read (0x1000 + 2 * (2 * 1023 + 1) + 1) = none ∧
    { z with capMem := [(0x1000, 1), (0x1001, 2)] }.capMem.read (0x1000 + 2 * (2 * 0 + 1)) = none ∧
    4 * 2 < z.params.ringN * z.params.slotSize ∧ z.ringMem.read (0x2000 + 4 * 2 + 3) = none ∧
    { z with ringMem := [(0x2008, 1)] }.ringMem.read (0x2000 + 4 * 2 + 1) = none := by decide

/-- Each refusal alone, and both ends of the legal operands, running and not. -/
theorem witness_CapConfigConstructsTheCaptureUnit :
    (8#8).toNat > z.params.channelMax ∧ { z with arg := 3 }.arg.toNat < 4 ∧ { z with arg := 2049 }.arg.toNat > 2048 ∧
    { z with arg := 6 }.arg.toNat % 4 ≠ 0 ∧
    (7#8).toNat ≤ z.params.channelMax ∧ 4 ≤ { z with arg := 4 }.arg.toNat ∧ { z with arg := 2048 }.arg.toNat ≤ 2048 ∧
    { z with arg := 2048 }.arg.toNat % 4 = 0 ∧ z.run = false ∧ cap8.run = true := by decide

theorem witness_CapStartArmsTheEngine :
    { z with arg := 0 }.arg.toNat = 0 ∧ { z with arg := 100001 }.arg.toNat > z.params.rateMax ∧
    { z with arg := 1 }.arg.toNat ≠ 0 ∧ { z with arg := 100000 }.arg.toNat ≤ z.params.rateMax ∧
    { cap8 with run := false }.capCfg = true ∧ { cap8 with run := false }.run = false ∧ z.capCfg = false := by decide

theorem witness_DsUpdateFeedsOneSample :
    (1#24 ≠ 0 ∧ z.dsCfg = false) ∧ (ds5.dsCfg = true ∧ ds5.count.toNat + 1 ≠ ds5.ratio.toNat) ∧
    ({ ds5 with count := 4 }.dsCfg = true ∧ { ds5 with count := 4 }.count.toNat + 1 = { ds5 with count := 4 }.ratio.toNat) := by decide

theorem witness_FilterStepFollowsTheCascade :
    ds5.coef.sections.length ≤ ds5.delay.length ∧ ds5.coef.sections[0]? = Config.coefEx.sections[0]? ∧
    ds5.delay[0]? = some (⟨0, 0⟩ : Delay) ∧ ds5.coef.sections.length ≤ 1 ∧
    (ds5.ratio.toNat, ds5.params.coef5) ∈ coefTable ds5.params ∧
    (({ ds5 with ratio := 100 } : State).ratio.toNat, ds5.params.coef100) ∈ coefTable ds5.params := by decide

/-- A slot that goes on, a slot that is full, and a full slot before DRAIN. -/
theorem witness_RingAppendStoresAndAdvances :
    z.Inv ∧ ({ z with pos := 3 }.Inv ∧ { z with pos := 3 }.pos.toNat + 1 = z.params.slotSize) ∧
    { z with fill := 2, pos := 3 }.Inv ∧ { z with ovfLatch := true }.Inv :=
  ⟨inv_of_check (by decide), ⟨inv_of_check (by decide), by decide⟩,
    inv_of_check (by decide), inv_of_check (by decide)⟩

theorem witness_PipeHalfRunsTheLoop :
    (half4.capCfg = true ∧ half4.dsCfg = true ∧ half4.halfValid0 = true) ∧ half4.halfValid1 = false ∧ z.capCfg = false ∧
    (cap8.capCfg = true ∧ cap8.dsCfg = false) ∧ (1#23 ≠ 0) := by decide

theorem witness_PipeHalfLeavesTheRestUnchanged :
    half4.Inv ∧ half4.capCfg = true ∧ half4.dsCfg = true ∧ (if (0#1) = 0 then half4.halfValid0 else half4.halfValid1) = true ∧
    ∃ t, exec (.pipeHalf 0 0) half4 = .next t :=
  ⟨inv_of_check (by decide), by decide, by decide, by decide, _, rfl⟩

/-- The second half, a sample left unread, and the last count of the cycle. -/
theorem witness_PipeHalfYield :
    (tick 1 1 half4).Inv ∧ (if (1#1) = 0 then (tick 1 1 half4).halfValid0 else (tick 1 1 half4).halfValid1) = true ∧
    (∃ t, exec (.pipeHalf 0 1) (tick 1 1 half4) = .next t) ∧
    { half4 with ready := true, count := 3 }.Inv ∧ 3 < { half4 with ready := true, count := 3 }.ratio.toNat - 1 ∧
    { half4 with ready := true, count := 4 }.Inv ∧ ¬ 4 < { half4 with ready := true, count := 4 }.ratio.toNat - 1 :=
  ⟨inv_of_check (by decide), by decide, ⟨_, rfl⟩,
    inv_of_check (by decide), by decide, inv_of_check (by decide), by decide⟩

/-- Both halves of a buffer of four cells, in each case with a capture storage that differs in the other half. -/
theorem witness_PipeHalfReadsOnlyWrittenCells :
    (half4.Inv ∧ half4.CapturedInv ∧ half4.halfValid0 = true ∧
      (∀ i, i < half4.len.toNat / 2 →
        Memory.read (half4.capMem ++ [(0x1004, 9)]) (cellAddr (0 * (half4.len.toNat / 2) + i)) =
          half4.capMem.read (cellAddr (0 * (half4.len.toNat / 2) + i)) ∧
        Memory.read (half4.capMem ++ [(0x1004, 9)]) (cellAddr (0 * (half4.len.toNat / 2) + i) + 1) =
          half4.capMem.read (cellAddr (0 * (half4.len.toNat / 2) + i) + 1)) ∧
      ∃ t, exec (.pipeHalf 0 0) half4 = .next t) ∧
    ((tick 1 1 half4).Inv ∧ (tick 1 1 half4).CapturedInv ∧ (tick 1 1 half4).halfValid1 = true ∧
      (∀ i, i < (tick 1 1 half4).len.toNat / 2 →
        Memory.read ((tick 1 1 half4).capMem.drop 4) (cellAddr (1 * ((tick 1 1 half4).len.toNat / 2) + i)) =
          (tick 1 1 half4).capMem.read (cellAddr (1 * ((tick 1 1 half4).len.toNat / 2) + i)) ∧
        Memory.read ((tick 1 1 half4).capMem.drop 4) (cellAddr (1 * ((tick 1 1 half4).len.toNat / 2) + i) + 1) =
          (tick 1 1 half4).capMem.read (cellAddr (1 * ((tick 1 1 half4).len.toNat / 2) + i) + 1)) ∧
      ∃ t, exec (.pipeHalf 0 1) (tick 1 1 half4) = .next t) :=
  ⟨⟨inv_of_check (by decide), by decide, by decide, by decide, _, rfl⟩,
    inv_of_check (by decide), by decide, by decide, by decide, _, rfl⟩

theorem witness_FailedCommandChangesOnlyLastStatus :
    (∃ t, exec (.ringDrain 0) z = .next t ∧ t.lastStatus ≠ .ok) ∧ (∃ t, exec (.nop 1) z = .next t ∧ t.lastStatus ≠ .ok) :=
  ⟨⟨_, rfl, by decide⟩, _, rfl, by decide⟩

theorem witness_ReservedImmBitsAreBadOperand : (Instr.pipeHalf 0x400000 0).wellFormed = false ∧ (Instr.capClear 1 0).wellFormed = false := by
  decide

theorem witness_StatusOfEachCommand :
    (∃ t, issue 0xFF000000 z = .next t) ∧ (∃ t, issue 0x13000004 z = .next t) ∧ (∃ t, issue 0x20000007 z = .next t) ∧
    (∃ t, issue 0x50000001 z = .next t) ∧ (∃ t, issue 0x00000000 z = .next t) ∧
    (statusOf 0xFF000000 z, statusOf 0x13000004 z, statusOf 0x20000007 z, statusOf 0x50000001 z, statusOf 0 z) =
      (.badOpcode, .badOperand, .badOperand, .badState, .ok) :=
  ⟨⟨_, rfl⟩, ⟨_, rfl⟩, ⟨_, rfl⟩, ⟨_, rfl⟩, ⟨_, rfl⟩, by decide⟩

theorem witness_ArgAndResultHaveTheirWriters : ∃ t, exec (.cmpEncode 0 0xFFFF) z = .next t ∧ t.result ≠ z.result :=
  ⟨_, rfl, by decide⟩

/-- For each clause a command that changes the elements it is about. -/
theorem witness_ElementsHaveTheirWriters :
    (∃ t, exec (.capConfig 0 1) { z with arg := 4 } = .next t ∧ t.capCfg ≠ z.capCfg ∧ t.channel ≠ z.channel ∧ t.len ≠ z.len) ∧
    (∃ t, exec (.capStart 0) { cap8After4 with run := false, rate := 1 } = .next t ∧ t.rate ≠ 1 ∧ t.run ≠ false ∧
      t.ht ≠ cap8After4.ht ∧ t.halfValid0 ≠ cap8After4.halfValid0) ∧
    (∃ t, exec (.capClear 0 2) cap8After4 = .next t ∧ t.ht = true ∧ t.tc ≠ cap8After4.tc) ∧
    (∃ t, exec (.dsConfig 0 5) { z with ready := true } = .next t ∧ t.dsCfg ≠ z.dsCfg ∧ t.ratio ≠ z.ratio ∧ t.ready ≠ true) ∧
    (∃ t, exec (.dsUpdate 0) ds5 = .next t ∧ t.count ≠ ds5.count) ∧
    (∃ t, exec (.ringDrain 0) { z with fill := 1 } = .next t ∧ t.drain ≠ z.drain) ∧
    (∃ t, exec (.ringAppend 0 1) { z with fill := 2, pos := 3 } = .next t ∧ t.ringMem ≠ z.ringMem ∧ t.fill ≠ 2 ∧ t.pos ≠ 3 ∧
      t.ovfCount ≠ z.ovfCount ∧ t.ovfLatch ≠ z.ovfLatch) := by
  repeat' apply And.intro
  all_goals exact next_of_check (by decide +kernel)

theorem witness_StepKeepsTheBuildParameters : ∃ t, step (z.withFetchWord 32 0) = .next t := ⟨_, rfl⟩

/-- The first pair of the buffer, the pair that completes half 0, and the last pair. -/
theorem witness_TickWritesOnePair :
    (cap8.Inv ∧ cap8.run = true ∧ { cap8 with schedule := [.tick 1 2] }.schedule = .tick 1 2 :: []) ∧
    { cap8 with widx := 2 }.Inv ∧ 2 + 2 = cap8.len.toNat / 2 ∧ { cap8 with widx := 6 }.Inv ∧ 6 + 2 = cap8.len.toNat :=
  ⟨⟨inv_of_check (by decide), by decide, by decide⟩, inv_of_check (by decide),
    by decide, inv_of_check (by decide), by decide⟩

theorem witness_EngineTicksExactlyWhileRunning : z.run = false ∧ z.schedule = [] ∧ cap8.run = true ∧ cap8.schedule = [] := by decide

theorem witness_TickNumberDecidesCellsAndFlags :
    { cap8 with run := false }.Inv ∧ ∃ u, exec (.capStart 0) { cap8 with run := false } = .next u ∧ u.lastStatus = .ok :=
  ⟨inv_of_check (by decide), _, rfl, by decide⟩

theorem witness_StepKeepsTheInvariant : half4.Inv ∧ ∃ t, step (half4.withFetchWord 32 0x50000000) = .next t :=
  ⟨inv_of_check (by decide), _, rfl⟩

theorem witness_InvariantsHoldAtReset : Config.exampleParams.Wf := by decide

theorem witness_StepKeepsTheStorageForm :
    half4.Inv ∧ half4.StorageInv ∧ half4.CodesInv ∧ half4.capMem ≠ [] ∧ ∃ t, step half4 = .next t :=
  ⟨inv_of_check (by decide), by decide, by decide, by decide, _, rfl⟩

theorem witness_StepKeepsValidHalvesWritten : half4.Inv ∧ half4.CapturedInv ∧ half4.halfValid0 = true ∧ ∃ t, step half4 = .next t :=
  ⟨inv_of_check (by decide), by decide, by decide, _, rfl⟩

theorem witness_ResetLeavesTheResetValues :
    { half4 with schedule := [.reset] }.schedule = .reset :: [] ∧ ∃ s, step { half4 with schedule := [.reset] } = .next s :=
  ⟨rfl, _, rfl⟩

/-- An inexact sum, an exact zero sum of opposite signs, an overflow, and infinities on either side. -/
theorem witness_SumsAreCorrectlyRounded :
    (finite 0x3F800000 ∧ finite 0x00000001 ∧ f32Int 0x3F800000 + f32Int 0x00000001 ≠ 0) ∧
    (finite 0x3F800000 ∧ finite 0xBF800000 ∧ f32Int 0x3F800000 + f32Int 0xBF800000 = 0) ∧
    (f32Int 0x3F800000 - f32Int 0xBF800000 ≠ 0 ∧ f32Int 0x3F800000 - f32Int 0x3F800000 = 0) ∧
    (finite 0x7F7FFFFF ∧ (2 ^ 25 - 1) * 2 ^ 252 * 2 ^ 0 ≤ (f32Int 0x7F7FFFFF + f32Int 0x7F7FFFFF).natAbs) ∧
    (f32IsInf 0xFF800000 = true ∧ f32IsNaN 0xFF800000 = false ∧ f32IsInf 0x3F800000 = false) ∧
    (f32IsInf 0x7F800000 = true ∧ f32Sign 0x7F800000 ≠ f32Sign 0xFF800000) := by decide +kernel

theorem witness_ProductsAreCorrectlyRounded :
    (finite 0x3F800000 ∧ finite 0x00000001 ∧ f32Int 0x3F800000 * f32Int 0x00000001 ≠ 0) ∧
    (finite 0x80000000 ∧ f32Int 0x3F800000 * f32Int 0x80000000 = 0) ∧
    (finite 0x7F7FFFFF ∧ (2 ^ 25 - 1) * 2 ^ 252 * 2 ^ 149 ≤ (f32Int 0x7F7FFFFF * f32Int 0x7F7FFFFF).natAbs) ∧
    (f32IsNaN 0xFF800000 = false ∧ f32IsInf 0xFF800000 = true ∧ f32Int 0xFF800000 ≠ 0 ∧ f32Int 0x00000001 ≠ 0) := by decide +kernel

theorem witness_NanResultsAreQnan :
    f32IsNaN (add32 0x7F800000 0xFF800000) = true ∧ f32IsNaN (sub32 0x7F800000 0x7F800000) = true ∧
    f32IsNaN (mul32 0x7F800000 0) = true ∧ f32IsNaN (mul32 0x80000000 0xFF800000) = true ∧ f32IsNaN (add32 0x7F800001 0) = true := by
  decide

theorem witness_NormIsExact :
    (2048#16).toNat + (2048#16).toNat = 4096 ∧ (4095#16).toNat < 4096 ∧ (0#16).toNat < 4096 := by decide

theorem witness_Q16TruncatesAndSaturates :
    f32IsNaN 0x7FC00000 = true ∧ f32IsInf 0xFF800000 = true ∧ finite 0x3F7FFFFF ∧ finite 0xFF7FFFFF := by decide

/-- Both ends of the first and of the last interval, and the most negative sample. -/
theorem witness_CodeExponentFollowsTheIntervals :
    (0#16).toInt.natAbs ≤ 123 ∧ (123#16).toInt.natAbs ≤ 123 ∧ 16252 ≤ (16252#16).toInt.natAbs ∧
    16252 ≤ (0x8000#16).toInt.natAbs ∧ (0x8000#16).toInt.natAbs ≤ 32768 ∧ (0x8000#16).toInt < 0 := by decide

theorem witness_CompressorRoundTripProperties :
    ((0x8001#16).toInt ≠ 0 ∧ (0x8001#16).toInt ≠ -32768) ∧ (32635#16).toInt.natAbs ≤ 32635 ∧ 32635 < (32636#16).toInt.natAbs ∧
    32635 < (0x8000#16).toInt.natAbs ∧ (0x8000#16).toInt ≤ (0x7FFF#16).toInt := by decide

theorem witness_DecimatorCadence :
    (∃ u, exec (.dsConfig 0 5) z = .next u ∧ u.lastStatus = .ok) ∧ (∃ u, exec (.dsConfig 0 100) z = .next u ∧ u.lastStatus = .ok) :=
  ⟨⟨_, rfl, by decide⟩, _, rfl, by decide⟩

/-- Two different states before DS_CONFIG. -/
theorem witness_FilterOutputIsDeterminedByItsInputs :
    (∃ u, exec (.dsConfig 0 5) z = .next u ∧ u.lastStatus = .ok) ∧ (∃ u, exec (.dsConfig 0 5) half4 = .next u) ∧
    coefOf z.params 5 = coefOf half4.params 5 :=
  ⟨⟨_, rfl, by decide⟩, ⟨_, rfl⟩, by decide⟩

theorem witness_OverflowAccounting : z.params.Wf ∧ ∃ u, exec (.ringReset 0) { z with fill := 1, drain := 2 } = .next u :=
  ⟨by decide, _, rfl⟩

/-- The oldest byte still held, and the newest. -/
theorem witness_RingHoldsTheLastBytes :
    z.params.Wf ∧ (∃ u, exec (.ringReset 0) z = .next u) ∧ (List.replicate 13 (7#8))[1]? = some 7#8 ∧
    13 ≤ 1 + z.params.ringN * z.params.slotSize ∧ (List.replicate 13 (7#8))[12]? = some 7#8 :=
  ⟨by decide, ⟨_, rfl⟩, by decide, by decide, by decide⟩

/-- A latched ring, an empty one, a full one before its overflow, and a count about to saturate. -/
theorem witness_LatchNeverSuppressesACount :
    { z with ovfLatch := true }.Inv ∧ z.Inv ∧ ({ z with fill := 2, ovfCount := 0xFFFFFFFE }.Inv ∧
    overflowEvent { z with fill := 2, ovfCount := 0xFFFFFFFE } = true) :=
  ⟨inv_of_check (by decide), inv_of_check (by decide),
    inv_of_check (by decide), by decide⟩

end Sys2Proof.Tests
end

namespace Sys2Proof.Machine

open Sys2Proof

/-! ## What an event can do, as one principle -/

/-- A predicate that holds after every event when it held before: one field for each thing an event can do (`step_next`,
`exec_next`). -/
structure KeptByEvents (P : State → Prop) : Prop where
  /-- The model's own fields: the events still to come, the word read, the draws. -/
  book : ∀ s schedule readData draws, P s → P { s with schedule := schedule, readData := readData, draws := draws }
  arg : ∀ s w, P s → P { s with arg := w }
  raise : ∀ c s, P s → P (s.raise c)
  complete : ∀ i s, OperandsLegal i s → StateReady i s → P s → P (okState i s)
  tick : ∀ a b s, s.run = true → P s → P (tick a b s)
  reset : ∀ s, P s → P (resetBlock s)

/-- A command keeps what every completed and every refused command keeps. -/
theorem KeptByEvents.exec {P : State → Prop} (k : KeptByEvents P) {i : Instr} {s t : State} (hs : P s)
    (h : exec i s = .next t) : P t := by
  rcases exec_next h with ⟨rfl, -⟩ | ⟨rfl, -⟩ | ⟨rfl, -, ho, hr, -⟩
  · exact k.raise _ s hs
  · exact k.raise _ s hs
  · exact k.complete i s ho hr hs

/-- The engine's own tick keeps what every tick keeps. -/
theorem KeptByEvents.idle {P : State → Prop} (k : KeptByEvents P) {s : State} (hs : P s) : P (idle s) := by
  unfold Machine.idle
  split
  · next hrun => exact k.tick _ _ { s with draws := s.draws + 2 } hrun (k.book s _ _ _ hs)
  · exact hs

/-- A step keeps what every event keeps. -/
theorem KeptByEvents.step {P : State → Prop} (k : KeptByEvents P) {s t : State} (hs : P s) (h : step s = .next t) : P t := by
  rcases step_next h with rfl | ⟨rest, h⟩
  · exact k.idle hs
  have hu : P { s with schedule := rest } := k.book s rest _ _ hs
  rcases h with ⟨off, rfl⟩ | ⟨i, h⟩ | rfl | ⟨w, rfl⟩ | rfl | ⟨a, b, rfl⟩ | rfl
  · exact k.book s _ _ _ hs
  · exact k.exec hu h
  · exact k.raise _ _ hu
  · exact k.arg _ w hu
  · exact hu
  · unfold scheduledTick
    split
    · next hrun => exact k.tick a b _ hrun hu
    · exact hu
  · exact k.reset _ hu

/-! ## Frames of the commands -/

/-- An append changes the ring and nothing else (43_ring R133). -/
theorem appendCore_frame (b : Byte) (s : State) : appendCore b s =
    { s with
      fill := (appendCore b s).fill, pos := (appendCore b s).pos, ovfCount := (appendCore b s).ovfCount,
      ovfLatch := (appendCore b s).ovfLatch, ringMem := (appendCore b s).ringMem } := by
  unfold appendCore
  split <;> rfl

/-- The state PIPE_HALF completes in differs from the one before in RESULT, LAST_STATUS, the decimator, the ring and the draw
counter (44_pipeline_control R147). -/
theorem okState_pipeHalf_frame (r : BitVec 23) (h : BitVec 1) (s : State) :
    okState (.pipeHalf r h) s =
      { s with
        result := (okState (.pipeHalf r h) s).result, lastStatus := .ok, delay := (okState (.pipeHalf r h) s).delay,
        count := (okState (.pipeHalf r h) s).count, ready := (okState (.pipeHalf r h) s).ready,
        sample := (okState (.pipeHalf r h) s).sample, fill := (okState (.pipeHalf r h) s).fill,
        pos := (okState (.pipeHalf r h) s).pos, ovfCount := (okState (.pipeHalf r h) s).ovfCount,
        ovfLatch := (okState (.pipeHalf r h) s).ovfLatch, ringMem := (okState (.pipeHalf r h) s).ringMem,
        draws := (okState (.pipeHalf r h) s).draws } := by
  simp only [okState, pipeHalf]
  rw [pipePairs_frame]
  rfl

/-- Likewise RING_APPEND, the ring and LAST_STATUS (43_ring R137). -/
theorem okState_ringAppend_frame (r : BitVec 16) (b : Byte) (s : State) :
    okState (.ringAppend r b) s =
      { s with
        lastStatus := .ok, fill := (okState (.ringAppend r b) s).fill, pos := (okState (.ringAppend r b) s).pos,
        ovfCount := (okState (.ringAppend r b) s).ovfCount, ovfLatch := (okState (.ringAppend r b) s).ovfLatch,
        ringMem := (okState (.ringAppend r b) s).ringMem } := by
  simp only [okState]
  rw [appendCore_frame]
  rfl

/-- What no command changes: the build parameters (43_ring R130), ARG (10_state R23) and the capture cells (10_state R30). -/
theorem okState_frame (i : Instr) (s : State) :
    (okState i s).params = s.params ∧ (okState i s).arg = s.arg ∧ (okState i s).capMem = s.capMem := by
  cases i with
  | ringAppend r b =>
    rw [okState_ringAppend_frame]
    exact ⟨rfl, rfl, rfl⟩
  | pipeHalf r h =>
    rw [okState_pipeHalf_frame]
    exact ⟨rfl, rfl, rfl⟩
  | _ => exact ⟨rfl, rfl, rfl⟩

@[simp] theorem okState_params (i : Instr) (s : State) : (okState i s).params = s.params := (okState_frame i s).1

@[simp] theorem okState_arg (i : Instr) (s : State) : (okState i s).arg = s.arg := (okState_frame i s).2.1

@[simp] theorem okState_capMem (i : Instr) (s : State) : (okState i s).capMem = s.capMem := (okState_frame i s).2.2

end Sys2Proof.Machine

/-! ## The invariants of 10_state R37 -/

namespace Sys2Proof.Machine

open Sys2Proof

/-! ### The capture unit -/

/-- A running engine is configured, its length legal and WIDX a cell pair inside it (10_state R27, R29). -/
theorem captureInv_running {s : State} (h : s.CaptureInv) (hrun : s.run = true) :
    s.capCfg = true ∧ lengthLegal s.len = true ∧ s.widx.toNat % 2 = 0 ∧ s.widx.toNat < s.len.toNat := by
  obtain ⟨configured, -, running⟩ := h
  obtain ⟨hcfg, -⟩ := running hrun
  obtain ⟨hlen, -, heven, hlt⟩ := configured hcfg
  exact ⟨hcfg, hlen, heven, hlt⟩

/-- A unit that is configured and legal meets the capture invariant. -/
theorem captureInv_of_configured {s : State} (hcfg : s.capCfg = true) (hlen : lengthLegal s.len = true)
    (hch : channelLegal s.params s.channel = true) (heven : s.widx.toNat % 2 = 0) (hlt : s.widx.toNat < s.len.toNat)
    (hrate : s.run = true → rateLegal s.params s.rate = true) : s.CaptureInv :=
  ⟨fun _ => ⟨hlen, hch, heven, hlt⟩, fun h => absurd (hcfg.symm.trans h) (by decide), fun h => ⟨hcfg, hrate h⟩⟩

/-- CAP_CONFIG with legal operands constructs a legal unit (41_capture R100). -/
theorem capConfig_captureInv {r : BitVec 16} {ch : Byte} {s : State} (ho : OperandsLegal (.capConfig r ch) s)
    (hr : StateReady (.capConfig r ch) s) : (okState (.capConfig r ch) s).CaptureInv := by
  obtain ⟨hch, hlen⟩ := ho
  have hpos : 0 < s.arg.toNat := lt_of_lt_of_le (by decide) (lengthLegal_iff.1 hlen).1
  exact captureInv_of_configured rfl hlen hch rfl hpos fun h => absurd (hr.symm.trans h) (by decide)

/-- CAP_START with a legal rate keeps the unit legal (41_capture R101). -/
theorem capStart_captureInv {r : BitVec 24} {s : State} (h : s.CaptureInv) (ho : OperandsLegal (.capStart r) s)
    (hr : StateReady (.capStart r) s) : (okState (.capStart r) s).CaptureInv := by
  obtain ⟨hcfg, -⟩ := hr
  obtain ⟨hlen, hch, -, hlt⟩ := h.1 hcfg
  exact captureInv_of_configured hcfg hlen hch rfl (Nat.zero_lt_of_lt hlt) fun _ => ho

/-- CAP_STOP only clears RUN (41_capture R102). -/
theorem capStop_captureInv {r : BitVec 24} {s : State} (h : s.CaptureInv) : (okState (.capStop r) s).CaptureInv := by
  obtain ⟨configured, unconfigured, -⟩ := h
  exact ⟨configured, unconfigured, fun hrun => (Bool.false_ne_true hrun).elim⟩

/-- CAP_CLEAR can only clear flags (41_capture R104). -/
theorem capClear_captureInv {r : BitVec 22} {mask : BitVec 2} {s : State} (h : s.CaptureInv) :
    (okState (.capClear r mask) s).CaptureInv := by
  obtain ⟨configured, unconfigured, running⟩ := h
  refine ⟨configured, fun hcfg => ?_, running⟩
  obtain ⟨hlen, hch, hwidx, hht, htc, hv0, hv1⟩ := unconfigured hcfg
  exact ⟨hlen, hch, hwidx, by simp [okState, hht], by simp [okState, htc], hv0, hv1⟩

/-- A tick moves WIDX two cells on, modulo LEN (41_capture R105). -/
theorem tick_captureInv (a b : Code) {s : State} (h : s.CaptureInv) (hrun : s.run = true) : (tick a b s).CaptureInv := by
  obtain ⟨hcfg, hlen, heven, hlt⟩ := captureInv_running h hrun
  obtain ⟨configured, -, running⟩ := h
  have hwidx := tick_widx_toNat a b hlen heven hlt
  have hlegal := lengthLegal_iff.1 hlen
  have hmod := Nat.mod_lt (s.widx.toNat + 2) (show 0 < s.len.toNat by omega)
  have hparity : (s.widx.toNat + 2) % s.len.toNat % 2 = (s.widx.toNat + 2) % 2 := Nat.mod_mod_of_dvd _ (by omega)
  refine captureInv_of_configured hcfg hlen (configured hcfg).2.1 ?_ ?_ fun hrun => (running hrun).2
  · omega
  · simpa only [hwidx, tick_len] using hmod

/-! ### The decimator -/

/-- A decimator that DS_CONFIG has just constructed (40_filter_downsampler R82). -/
theorem dsConfig_decimatorInv {r : BitVec 16} {q : Byte} {s : State} (ho : OperandsLegal (.dsConfig r q) s) :
    (okState (.dsConfig r q) s).DecimatorInv := by
  have hpos : 0 < q.toNat := by
    have := ratioLegal_iff.1 ho
    omega
  exact ⟨fun _ => ⟨ho, hpos⟩, fun h => (Bool.false_ne_true h.symm).elim, List.length_replicate, List.drop_replicate⟩

/-- An update of a configured decimator counts modulo RATIO and filters in the sections of the set in use alone
(40_filter_downsampler R78, R80). -/
theorem dsUpdateCore_decimatorInv (x : Word) {s : State} (h : s.DecimatorInv) (hcfg : s.dsCfg = true) :
    (dsUpdateCore x s).DecimatorInv := by
  obtain ⟨configured, -, hlength, hdrop⟩ := h
  obtain ⟨hratio, hcount⟩ := configured hcfg
  refine ⟨fun _ => ⟨hratio, ?_⟩, fun h => absurd (hcfg.symm.trans h) (by decide), ?_, ?_⟩
  · rw [dsUpdateCore_count_toNat hcount]
    exact Nat.mod_lt _ (Nat.zero_lt_of_lt hcount)
  · rw [dsUpdateCore_delay, filterStep, cascade_length, hlength]
  · rw [dsUpdateCore_dsCfg, hcfg, if_pos rfl] at *
    exact (cascade_drop _ _ _).trans hdrop

/-- A sample read clears READY and nothing else (40_filter_downsampler R81). -/
theorem dsGetCore_decimatorInv {s : State} (h : s.DecimatorInv) : (dsGetCore s).DecimatorInv := by
  obtain ⟨configured, unconfigured, hdelay⟩ := h
  refine ⟨configured, fun hcfg => ?_, hdelay⟩
  obtain ⟨hratio, hcount, -, hsample⟩ := unconfigured hcfg
  exact ⟨hratio, hcount, rfl, hsample⟩

/-! ### The ring -/

/-- The next slot of a legal ring is a slot (43_ring R134). -/
theorem nextSlot_lt {p : Params} (h : p.Wf) (i : Byte) : (nextSlot p i).toNat < p.ringN := by
  obtain ⟨-, -, ⟨hlo, hhi⟩, -⟩ := h
  rw [nextSlot_toNat hhi (by omega)]
  exact Nat.mod_lt _ (by omega)

/-- An advance lands on a slot, and latches only a landing on DRAIN (43_ring R134). -/
theorem advanceCore_ringInv {s : State} (hp : s.params.Wf) (h : s.RingInv) : (advanceCore s).RingInv := by
  obtain ⟨-, hdrain, hpos, -⟩ := h
  exact ⟨nextSlot_lt hp s.fill, hdrain, hpos, fun hev => beq_iff_eq.1 hev⟩

/-- An append keeps POS inside the slot (43_ring R133). -/
theorem appendCore_ringInv (b : Byte) {s : State} (hp : s.params.Wf) (h : s.RingInv) : (appendCore b s).RingInv := by
  obtain ⟨hfill, hdrain, hpos, hlatch⟩ := h
  obtain ⟨-, -, -, ⟨-, -, hslot⟩, -⟩ := id hp
  unfold appendCore
  split
  · exact advanceCore_ringInv hp ⟨hfill, hdrain, Nat.zero_lt_of_lt hpos, hlatch⟩
  · next hroom =>
    refine ⟨hfill, hdrain, ?_, hlatch⟩
    show (BitVec.ofNat 16 (s.pos.toNat + 1)).toNat < s.params.slotSize
    rw [BitVec.toNat_ofNat]
    omega

/-- RING_RESET empties a legal ring (43_ring R136). -/
theorem ringReset_ringInv {r : BitVec 24} {s : State} (h : s.RingInv) : (okState (.ringReset r) s).RingInv := by
  obtain ⟨hfill, -, hpos, -⟩ := h
  exact ⟨Nat.zero_lt_of_lt hfill, Nat.zero_lt_of_lt hfill, Nat.zero_lt_of_lt hpos, fun _ => rfl⟩

/-- RING_DRAIN of a pending slot: the latch is 0, since an overflow leaves none pending (43_ring R135, R138). -/
theorem ringDrain_ringInv {r : BitVec 24} {s : State} (hp : s.params.Wf) (h : s.RingInv) (hr : StateReady (.ringDrain r) s) :
    (okState (.ringDrain r) s).RingInv := by
  obtain ⟨hfill, -, hpos, hlatch⟩ := h
  exact ⟨hfill, nextSlot_lt hp s.drain, hpos, fun hl => absurd (hlatch hl) hr⟩

/-! ### The whole block -/

/-- An update of a configured decimator keeps the invariants. -/
theorem dsUpdateCore_inv (x : Word) {s : State} (h : s.Inv) (hcfg : s.dsCfg = true) : (dsUpdateCore x s).Inv := by
  obtain ⟨hp, hcap, hds, hring⟩ := h
  exact ⟨hp, hcap, dsUpdateCore_decimatorInv x hds hcfg, hring⟩

/-- A sample read keeps the invariants. -/
theorem dsGetCore_inv {s : State} (h : s.Inv) : (dsGetCore s).Inv := by
  obtain ⟨hp, hcap, hds, hring⟩ := h
  exact ⟨hp, hcap, dsGetCore_decimatorInv hds, hring⟩

/-- An append keeps the invariants. -/
theorem appendCore_inv (b : Byte) {s : State} (h : s.Inv) : (appendCore b s).Inv := by
  obtain ⟨hp, hcap, hds, hring⟩ := h
  have hring' := appendCore_ringInv b hp hring
  rw [appendCore_frame] at hring' ⊢
  exact ⟨hp, hcap, hds, hring'⟩

/-- What a draw, an update, a sample read and an append keep, the loop of PIPE_HALF keeps (44_pipeline_control R147). -/
theorem pipePairs_keeps {P : State → Prop} (draw : ∀ s n, P s → P { s with draws := n })
    (update : ∀ x s, P s → P (dsUpdateCore x s)) (get : ∀ s, P s → P (dsGetCore s))
    (append : ∀ b s, P s → P (appendCore b s)) (n : Nat) : ∀ (cell : Nat) (s : State), P s → P (pipePairs n cell s).1 := by
  have turn : ∀ cell s, P s → P (pipePair cell s).1 := by
    intro cell s hs
    unfold pipePair takeReady
    split
    · exact append _ _ (get _ (update _ _ (draw s _ hs)))
    · exact update _ _ (draw s _ hs)
  induction n with
  | zero => exact fun _ _ hs => hs
  | succ n ih => exact fun cell s hs => ih _ _ (turn cell s hs)

/-- The loop of PIPE_HALF keeps the invariants, the decimator being configured. -/
theorem pipePairs_inv (n cell : Nat) {s : State} (h : s.Inv) (hcfg : s.dsCfg = true) : (pipePairs n cell s).1.Inv :=
  (pipePairs_keeps (P := fun s => s.Inv ∧ s.dsCfg = true) (fun _ _ h => h)
    (fun x _ h => ⟨dsUpdateCore_inv x h.1 h.2, h.2⟩) (fun s h => ⟨dsGetCore_inv (s := s) h.1, h.2⟩)
    (fun b _ h => ⟨appendCore_inv b h.1, (appendCore_dsCfg b _).trans h.2⟩) n cell s ⟨h, hcfg⟩).1

/-- Every command that completes keeps the invariants: the part of its own unit, the other parts being untouched. -/
theorem okState_inv {i : Instr} {s : State} (ho : OperandsLegal i s) (hr : StateReady i s) (h : s.Inv) :
    (okState i s).Inv := by
  obtain ⟨hp, hcap, hds, hring⟩ := id h
  cases i with
  | nop | cmpEncode | cmpEncodeF => exact h
  | capConfig => exact ⟨hp, capConfig_captureInv ho hr, hds, hring⟩
  | capStart => exact ⟨hp, capStart_captureInv hcap ho hr, hds, hring⟩
  | capStop => exact ⟨hp, capStop_captureInv hcap, hds, hring⟩
  | capClear => exact ⟨hp, capClear_captureInv hcap, hds, hring⟩
  | dsConfig => exact ⟨hp, hcap, dsConfig_decimatorInv ho, hring⟩
  | dsUpdate => exact dsUpdateCore_inv s.arg h hr
  | dsGet => exact dsGetCore_inv (s := s) h
  | ringReset => exact ⟨hp, hcap, hds, ringReset_ringInv hring⟩
  | ringAppend r b => exact appendCore_inv b h
  | ringDrain => exact ⟨hp, hcap, hds, ringDrain_ringInv hp hring hr⟩
  | pipeHalf => exact pipePairs_inv _ _ h hr.2

/-- The reset values meet the invariants, for legal parameters (10_state R22, R37). -/
theorem resetWith_inv {p : Params} (hp : p.Wf) : (State.resetWith p).Inv := by
  obtain ⟨-, -, ⟨hn, -⟩, ⟨-, hsize, -⟩, -⟩ := id hp
  have hcap : (State.resetWith p).CaptureInv :=
    ⟨fun h => (Bool.false_ne_true h).elim, fun _ => ⟨rfl, rfl, rfl, rfl, rfl, rfl, rfl⟩, fun h => (Bool.false_ne_true h).elim⟩
  have hds : (State.resetWith p).DecimatorInv :=
    ⟨fun h => (Bool.false_ne_true h).elim, fun _ => ⟨rfl, rfl, rfl, rfl⟩, rfl, rfl⟩
  exact ⟨hp, hcap, hds, Nat.zero_lt_of_lt hn, Nat.zero_lt_of_lt hn, Nat.zero_lt_of_lt hsize, fun _ => rfl⟩

/-- Every event keeps the invariants (10_state R37). -/
theorem inv_keptByEvents : KeptByEvents State.Inv where
  book _ _ _ _ h := h
  arg _ _ h := h
  raise _ _ h := h
  complete _ _ ho hr h := okState_inv ho hr h
  tick a b _ hrun h := by
    obtain ⟨hp, hcap, hds, hring⟩ := h
    exact ⟨hp, tick_captureInv a b hcap hrun, hds, hring⟩
  reset _ h := resetWith_inv h.1

/-- Settles O44: each event keeps the part of the invariants that speaks of the unit it changes. -/
theorem stepKeepsTheInvariant : Obligations.StepKeepsTheInvariant :=
  fun _ _ hs h => inv_keptByEvents.step hs h

/-- Settles O40: the parameters are kept by every event. -/
theorem stepKeepsTheBuildParameters : Obligations.StepKeepsTheBuildParameters := by
  intro s t h
  have kept : KeptByEvents fun u => u.params = s.params :=
    { book := fun _ _ _ _ h => h, arg := fun _ _ h => h, raise := fun _ _ h => h,
      complete := fun i u _ _ h => (okState_params i u).trans h, tick := fun _ _ _ _ h => h, reset := fun _ h => h }
  exact kept.step rfl h

end Sys2Proof.Machine

/-! ## The storage (10_state R30, R35, R38) -/

namespace Sys2Proof.Machine

open Sys2Proof

/-! ### Canonical form and address ranges -/

/-- The four bytes of a pair below LEN lie in the capture window (20_memory R46). -/
theorem storePair_range {m : Memory} {i : Nat} (a b : Code) (hi : i + 2 ≤ 2048)
    (h : ∀ e ∈ m, 0x1000 ≤ e.1 ∧ e.1 < 0x2000) : ∀ e ∈ storePair m i a b, 0x1000 ≤ e.1 ∧ e.1 < 0x2000 := by
  have hbase : cellAddr i = 0x1000 + 2 * i := rfl
  intro e he
  rcases storePair_mem he with rfl | rfl | rfl | rfl | he
  case inr.inr.inr.inr => exact h e he
  all_goals constructor <;> dsimp only <;> omega

/-- A byte of a slot lies in the ring window (20_memory R47). -/
theorem slotAddr_range {p : Params} {slot b : Nat} (hslot : slot < p.ringN) (hb : b < p.slotSize) :
    0x2000 ≤ slotAddr p slot b ∧ slotAddr p slot b < 0x2000 + p.ringN * p.slotSize := by
  have hrow : (slot + 1) * p.slotSize ≤ p.ringN * p.slotSize := Nat.mul_le_mul_right _ hslot
  rw [Nat.succ_mul] at hrow
  unfold slotAddr
  omega

/-- A tick of a running engine stores inside the capture window (41_capture R105). -/
theorem tick_storageInv (a b : Code) {s : State} (h : s.Inv) (hrun : s.run = true) (hs : s.StorageInv) :
    (tick a b s).StorageInv := by
  obtain ⟨-, hlen, heven, hlt⟩ := captureInv_running h.2.1 hrun
  have hlegal := lengthLegal_iff.1 hlen
  obtain ⟨hcap, hring, hcapRange, hringRange⟩ := hs
  exact ⟨storePair_wf hcap _ a b, hring, storePair_range a b (by omega) hcapRange, hringRange⟩

/-- An append stores inside the ring window (43_ring R133). -/
theorem appendCore_storageInv (b : Byte) {s : State} (h : s.Inv) (hs : s.StorageInv) : (appendCore b s).StorageInv := by
  obtain ⟨-, -, -, hfill, -, hpos, -⟩ := h
  obtain ⟨hcap, hring, hcapRange, hringRange⟩ := hs
  simp only [State.StorageInv, appendCore_capMem, appendCore_ringMem, appendCore_params]
  refine ⟨hcap, memory_write_wf hring _ b, hcapRange, fun e he => ?_⟩
  rcases memory_mem_write he with rfl | he
  · exact slotAddr_range hfill hpos
  · exact hringRange e he

/-- The loop of PIPE_HALF keeps the storage form. -/
theorem pipePairs_storageInv (n cell : Nat) {s : State} (h : s.Inv) (hcfg : s.dsCfg = true) (hs : s.StorageInv) :
    (pipePairs n cell s).1.StorageInv :=
  (pipePairs_keeps (P := fun s => (s.Inv ∧ s.dsCfg = true) ∧ s.StorageInv) (fun _ _ h => h)
    (fun x _ h => ⟨⟨dsUpdateCore_inv x h.1.1 h.1.2, h.1.2⟩, h.2⟩) (fun s h => ⟨⟨dsGetCore_inv (s := s) h.1.1, h.1.2⟩, h.2⟩)
    (fun b _ h => ⟨⟨appendCore_inv b h.1.1, (appendCore_dsCfg b _).trans h.1.2⟩, appendCore_storageInv b h.1.1 h.2⟩)
    n cell s ⟨⟨h, hcfg⟩, hs⟩).2

/-- Every command that completes keeps the storage form: two commands store, into the ring. -/
theorem okState_storageInv {i : Instr} {s : State} (hr : StateReady i s) (h : s.Inv) (hs : s.StorageInv) :
    (okState i s).StorageInv := by
  cases i with
  | ringAppend r b => exact appendCore_storageInv b h hs
  | pipeHalf => exact pipePairs_storageInv _ _ h hr.2 hs
  | _ => exact hs

/-- The reset storage has the storage form: it is empty. -/
theorem resetWith_storageInv (p : Params) : (State.resetWith p).StorageInv :=
  ⟨memory_nil_wf, memory_nil_wf, fun _ he => absurd he List.not_mem_nil, fun _ he => absurd he List.not_mem_nil⟩

/-- Every event keeps the storage form, under the invariants (20_memory R40). -/
theorem storageInv_keptByEvents : KeptByEvents fun s => s.Inv ∧ s.StorageInv where
  book _ _ _ _ h := h
  arg _ _ h := h
  raise _ _ h := h
  complete _ _ ho hr h := ⟨okState_inv ho hr h.1, okState_storageInv hr h.1 h.2⟩
  tick a b s hrun h := ⟨inv_keptByEvents.tick a b s hrun h.1, tick_storageInv a b h.1 hrun h.2⟩
  reset s h := ⟨inv_keptByEvents.reset s h.1, resetWith_storageInv s.params⟩

/-- Every event keeps the canonical form of the capture storage, in any state. -/
theorem capMem_wf_keptByEvents : KeptByEvents fun s => s.capMem.wf where
  book _ _ _ _ h := h
  arg _ _ h := h
  raise _ _ h := h
  complete i s _ _ h := by rwa [okState_capMem]
  tick a b _ _ h := storePair_wf h _ a b
  reset _ _ := memory_nil_wf

/-- An append keeps the canonical form of the ring storage. -/
theorem appendCore_ringMem_wf (b : Byte) {s : State} (h : s.ringMem.wf) : (appendCore b s).ringMem.wf := by
  rw [appendCore_ringMem]
  exact memory_write_wf h _ b

/-- Every command that completes keeps the canonical form of the ring storage. -/
theorem okState_ringMem_wf (i : Instr) {s : State} (h : s.ringMem.wf) : (okState i s).ringMem.wf := by
  cases i with
  | ringAppend r b => exact appendCore_ringMem_wf b h
  | pipeHalf =>
    exact pipePairs_keeps (P := fun s => s.ringMem.wf) (fun _ _ h => h) (fun _ _ h => h) (fun _ h => h)
      (fun b _ h => appendCore_ringMem_wf b h) _ _ s h
  | _ => exact h

/-- Every event keeps the canonical form of the ring storage, in any state. -/
theorem ringMem_wf_keptByEvents : KeptByEvents fun s => s.ringMem.wf where
  book _ _ _ _ h := h
  arg _ _ h := h
  raise _ _ h := h
  complete i _ _ _ h := okState_ringMem_wf i h
  tick _ _ _ _ h := h
  reset _ _ := memory_nil_wf

/-! ### The code format of a cell -/

/-- The high bytes of a stored pair, at the odd offsets, are below 16 (10_state R30). -/
theorem storePair_codes {m : Memory} (i : Nat) (a b : Code) (h : ∀ e ∈ m, e.1 % 2 = 1 → e.2.toNat < 16) :
    ∀ e ∈ storePair m i a b, e.1 % 2 = 1 → e.2.toNat < 16 := by
  have heven : cellAddr i % 2 = 0 := by
    unfold cellAddr
    omega
  intro e he hodd
  rcases storePair_mem he with rfl | rfl | rfl | rfl | he
  · dsimp only at hodd
    omega
  · exact code_high_lt a
  · dsimp only at hodd
    omega
  · exact code_high_lt b
  · exact h e he hodd

/-- The reset storage holds no cell. -/
theorem resetWith_codesInv (p : Params) : (State.resetWith p).CodesInv := fun _ he => absurd he List.not_mem_nil

/-- Every event keeps bits 15:12 of the capture cells at 0 (10_state R30). -/
theorem codesInv_keptByEvents : KeptByEvents State.CodesInv where
  book _ _ _ _ h := h
  arg _ _ h := h
  raise _ _ h := h
  complete i s _ _ h := by simpa only [State.CodesInv, okState_capMem] using h
  tick a b s _ h := storePair_codes s.widx.toNat a b h
  reset s _ := resetWith_codesInv s.params

/-- Settles O46: only a tick stores into the capture window, only an append into the ring window, each inside its own. -/
theorem stepKeepsTheStorageForm : Obligations.StepKeepsTheStorageForm :=
  fun _ _ h => ⟨fun hs hst => (storageInv_keptByEvents.step ⟨hs, hst⟩ h).2, fun hs => codesInv_keptByEvents.step hs h,
    fun hs => capMem_wf_keptByEvents.step hs h, fun hs => ringMem_wf_keptByEvents.step hs h⟩

/-! ### Valid halves -/

/-- A cell has a value exactly when both of its bytes have been written. -/
theorem capCell_isSome {s : State} {i : Nat} :
    (s.capCell i).isSome = true ↔
      (s.capMem.read (cellAddr i)).isSome = true ∧ (s.capMem.read (cellAddr i + 1)).isSome = true := by
  unfold State.capCell
  cases s.capMem.read (cellAddr i) <;> cases s.capMem.read (cellAddr i + 1) <;> simp

/-- The cells written after a tick are its pair and those written before (41_capture R105). -/
theorem tick_capCell_isSome (a b : Code) {s : State} {i : Nat} :
    ((tick a b s).capCell i).isSome = true ↔
      i = s.widx.toNat ∨ i = s.widx.toNat + 1 ∨ (s.capCell i).isSome = true := by
  rw [tick_capCell]
  split_ifs <;> simp [*]

/-- A tick unwrites no cell (41_capture R105). -/
theorem tick_cellsWritten_of_cellsWritten (a b : Code) {s : State} {lo hi : Nat} (h : s.cellsWritten lo hi) :
    (tick a b s).cellsWritten lo hi :=
  fun i hlt hle => (tick_capCell_isSome a b).2 (.inr (.inr (h i hlt hle)))

/-- A tick extends the part written before WIDX by its pair (41_capture R105). -/
theorem tick_cellsWritten_pair (a b : Code) {s : State} {lo : Nat} (h : s.cellsWritten lo s.widx.toNat) :
    (tick a b s).cellsWritten lo (s.widx.toNat + 2) := by
  intro i hlt hle
  rw [tick_capCell_isSome]
  rcases Nat.lt_or_ge i s.widx.toNat with hold | hnew
  · exact .inr (.inr (h i hold hle))
  · omega

/-- After a tick half 0 is valid only if the tick completed it or it was (10_state R38). -/
theorem tick_halfValid0 {a b : Code} {s : State} (h : (tick a b s).halfValid0 = true) :
    s.widx.toNat + 2 = s.len.toNat / 2 ∨ s.halfValid0 = true := by
  simp only [tick, Bool.or_eq_true, decide_eq_true_eq, Bool.and_eq_true] at h
  exact h.imp id And.left

/-- After a tick half 1 is valid only if the tick completed it or it was (10_state R38). -/
theorem tick_halfValid1 {a b : Code} {s : State} (h : (tick a b s).halfValid1 = true) :
    s.widx.toNat + 2 = s.len.toNat ∨ s.halfValid1 = true := by
  simp only [tick, Bool.or_eq_true, decide_eq_true_eq, Bool.and_eq_true] at h
  exact h.imp id And.left

/-- A tick keeps what HALF_VALID promises: it completes a half only by writing its last pair (10_state R38). -/
theorem tick_capturedInv (a b : Code) {s : State} (h : s.CaptureInv) (hrun : s.run = true) (hs : s.CapturedInv) :
    (tick a b s).CapturedInv := by
  obtain ⟨-, hlen, heven, hlt⟩ := captureInv_running h hrun
  have hlegal := lengthLegal_iff.1 hlen
  have hwidx := tick_widx_toNat a b hlen heven hlt
  obtain ⟨half0, half1, current⟩ := hs
  have pair := tick_cellsWritten_pair a b current
  refine ⟨fun hv => ?_, fun hv => ?_, ?_⟩
  · rcases tick_halfValid0 hv with hdone | hv
    · rw [if_pos (by omega), hdone] at pair
      exact pair
    · exact tick_cellsWritten_of_cellsWritten a b (half0 hv)
  · rcases tick_halfValid1 hv with hdone | hv
    · rw [if_neg (by omega), hdone] at pair
      exact pair
    · exact tick_cellsWritten_of_cellsWritten a b (half1 hv)
  · rw [tick_len, hwidx]
    rcases Nat.lt_or_eq_of_le (show s.widx.toNat + 2 ≤ s.len.toNat by omega) with hnext | hwrap
    · rw [Nat.mod_eq_of_lt hnext]
      by_cases hhalf : s.widx.toNat + 2 = s.len.toNat / 2
      · rw [if_neg (by omega), hhalf]
        exact fun i hlt hle => absurd hlt (by omega)
      · have hsame : s.widx.toNat + 2 < s.len.toNat / 2 ↔ s.widx.toNat < s.len.toNat / 2 := by omega
        simpa only [hsame] using pair
    · rw [hwrap, Nat.mod_self]
      exact fun i hlt => absurd hlt (Nat.not_lt_zero i)

/-- With no half valid and WIDX 0 there is nothing to have been written. -/
theorem capturedInv_of_noneValid {s : State} (h0 : s.halfValid0 = false) (h1 : s.halfValid1 = false) (hw : s.widx = 0) :
    s.CapturedInv :=
  ⟨fun h => absurd (h0.symm.trans h) (by decide), fun h => absurd (h1.symm.trans h) (by decide),
    fun i hi => absurd (lt_of_lt_of_eq hi (congrArg BitVec.toNat hw)) (Nat.not_lt_zero i)⟩

/-- No half is valid at reset. -/
theorem resetWith_capturedInv (p : Params) : (State.resetWith p).CapturedInv := capturedInv_of_noneValid rfl rfl rfl

/-- Every command that completes keeps what HALF_VALID promises: CAP_CONFIG and CAP_START drop it, no other touches it. -/
theorem okState_capturedInv (i : Instr) {s : State} (h : s.CapturedInv) : (okState i s).CapturedInv := by
  cases i with
  | capConfig | capStart => exact capturedInv_of_noneValid rfl rfl rfl
  | ringAppend r b =>
    rw [okState_ringAppend_frame]
    exact h
  | pipeHalf r half =>
    rw [okState_pipeHalf_frame]
    exact h
  | _ => exact h

/-- Every event keeps what HALF_VALID promises, under the invariants (10_state R38). -/
theorem capturedInv_keptByEvents : KeptByEvents fun s => s.Inv ∧ s.CapturedInv where
  book _ _ _ _ h := h
  arg _ _ h := h
  raise _ _ h := h
  complete i _ ho hr h := ⟨okState_inv ho hr h.1, okState_capturedInv i h.2⟩
  tick a b s hrun h := ⟨inv_keptByEvents.tick a b s hrun h.1, tick_capturedInv a b h.1.2.1 hrun h.2⟩
  reset s h := ⟨inv_keptByEvents.reset s h.1, resetWith_capturedInv s.params⟩

/-- Settles O47: a half becomes valid only by the tick that writes its last pair, and no event unwrites a cell. -/
theorem stepKeepsValidHalvesWritten : Obligations.StepKeepsValidHalvesWritten :=
  fun _ _ hs hc h => (capturedInv_keptByEvents.step ⟨hs, hc⟩ h).2

end Sys2Proof.Machine

/-! ## What PIPE_HALF reads (10_state R38; 70_reset_and_hazards R181) -/

namespace Sys2Proof.Machine

open Sys2Proof

/-- Cells one after the other are written when each of their bytes is. -/
theorem cellsWritten_bytes {s : State} {base n : Nat} (h : s.cellsWritten base (base + n)) {j : Nat} (hj : j < 2 * n) :
    (s.capMem.read (cellAddr base + j)).isSome = true := by
  obtain ⟨hlo, hhi⟩ := capCell_isSome.1 (h (base + j / 2) (by omega) (by omega))
  rcases Nat.mod_two_eq_zero_or_one j with hj | hj
  · rwa [show cellAddr base + j = cellAddr (base + j / 2) by unfold cellAddr; omega]
  · rwa [show cellAddr base + j = cellAddr (base + j / 2) + 1 by unfold cellAddr; omega]

/-- Two storages that agree on cells one after the other agree on each of their bytes. -/
theorem cells_agree_bytes {m m' : Memory} {base n : Nat}
    (h : ∀ i, i < n → m'.read (cellAddr (base + i)) = m.read (cellAddr (base + i)) ∧
      m'.read (cellAddr (base + i) + 1) = m.read (cellAddr (base + i) + 1)) {j : Nat} (hj : j < 2 * n) :
    m'.read (cellAddr base + j) = m.read (cellAddr base + j) := by
  obtain ⟨hlo, hhi⟩ := h (j / 2) (by omega)
  rcases Nat.mod_two_eq_zero_or_one j with hj | hj
  · rwa [show cellAddr base + j = cellAddr (base + j / 2) by unfold cellAddr; omega]
  · rwa [show cellAddr base + j = cellAddr (base + j / 2) + 1 by unfold cellAddr; omega]

/-- The cells of a valid half are written (10_state R38). -/
theorem capturedInv_half {s : State} {h : BitVec 1} (hs : s.CapturedInv)
    (hv : (if h = 0 then s.halfValid0 else s.halfValid1) = true) :
    s.cellsWritten (h.toNat * (s.len.toNat / 2)) (h.toNat * (s.len.toNat / 2) + s.len.toNat / 2) := by
  obtain ⟨half0, half1, -⟩ := hs
  rcases half_cases h with rfl | rfl
  · simpa using half0 hv
  · intro i hlt hle
    have hbase : (1 : BitVec 1).toNat * (s.len.toNat / 2) = s.len.toNat / 2 := Nat.one_mul _
    exact half1 hv i (by omega) (by omega)

/-- The loop of PIPE_HALF over a written half does the same from any draw number and any capture storage that agrees on the
half (44_pipeline_control R147). -/
theorem pipeHalf_capture {s : State} {h n : Nat} {m : Memory}
    (hw : s.cellsWritten (h * (s.len.toNat / 2)) (h * (s.len.toNat / 2) + s.len.toNat / 2))
    (hm : ∀ i, i < s.len.toNat / 2 →
      m.read (cellAddr (h * (s.len.toNat / 2) + i)) = s.capMem.read (cellAddr (h * (s.len.toNat / 2) + i)) ∧
      m.read (cellAddr (h * (s.len.toNat / 2) + i) + 1) = s.capMem.read (cellAddr (h * (s.len.toNat / 2) + i) + 1)) :
    pipeHalf h { s with draws := n, capMem := m } =
      ({ (pipeHalf h s).1 with draws := n + 4 * (s.len.toNat / 4), capMem := m }, (pipeHalf h s).2) :=
  pipePairs_capture (s.len.toNat / 4) (fun _ hj => cells_agree_bytes hm (by omega))
    (fun _ hj => cellsWritten_bytes hw (by omega))

/-- Settles O34: the loop reads its half alone, and all of it is written. -/
theorem pipeHalfReadsOnlyWrittenCells : Obligations.PipeHalfReadsOnlyWrittenCells := by
  intro s t h n m _ hs hv hm hexec
  rcases exec_next hexec with ⟨-, hbad⟩ | ⟨rfl, hw, ho, hr⟩ | ⟨rfl, hw, ho, hr, hh⟩
  · rcases hbad with hbad | hbad
    · cases hbad
    · exact absurd trivial hbad
  · exact ⟨n, exec_badState hw ho hr⟩
  · have run := exec_complete (s := { s with draws := n, capMem := m }) hw ho hr hh
    simp only [okState, pipeHalf_capture (capturedInv_half hs hv) hm] at run
    exact ⟨_, run⟩

end Sys2Proof.Machine

/-! ## Reads of unwritten storage (10_state R39) -/

namespace Sys2Proof.Machine

open Sys2Proof

/-- A step whose event is an aligned 32-bit read in a storage window takes four draws and changes nothing else
(20_memory R52). -/
theorem step_read_window (s : State) {off : Nat} (rest : List Event) (hlo : 0x1000 ≤ off) (hhi : off < 0x4000)
    (ha : off % 4 = 0) :
    step { s with schedule := .read off 4 :: rest } =
      .next { s with
        schedule := rest, readData := busWord { s with schedule := rest } off, draws := s.draws + 4 } := by
  show busRead off 4 { s with schedule := rest } = _
  have hlegal : accessLegal off 4 = true := by simp [accessLegal, ha]
  simp [busRead, hlegal, hlo, Nat.not_le.2 hhi]

/-- A read in the capture window returns the word at its offset (20_memory R46). -/
theorem step_read_capture (s : State) {k : Nat} (rest : List Event) (hk : k < 1024) :
    step { s with schedule := .read (0x1000 + 4 * k) 4 :: rest } =
      .next { s with
        schedule := rest, readData := s.capMem.fetchWord (0x1000 + 4 * k) s.draws, draws := s.draws + 4 } := by
  rw [step_read_window s rest (by omega) (by omega) (by omega), busWord, if_neg (by omega), if_neg (by omega),
    if_neg (by omega), if_pos (by omega)]

/-- A read in the ring window below `RING_N * SLOT_SIZE` returns the word at its offset (20_memory R47). -/
theorem step_read_ring (s : State) {k : Nat} (rest : List Event) (hk : k < 2048)
    (hsize : 4 * k < s.params.ringN * s.params.slotSize) :
    step { s with schedule := .read (0x2000 + 4 * k) 4 :: rest } =
      .next { s with
        schedule := rest, readData := s.ringMem.fetchWord (0x2000 + 4 * k) s.draws, draws := s.draws + 4 } := by
  rw [step_read_window s rest (by omega) (by omega) (by omega), busWord, if_neg (by omega), if_neg (by omega),
    if_neg (by omega), if_neg (by omega), ringWord, if_pos (by simpa using hsize)]

/-- Byte `j` of a window word is draw number `n + j` where nothing has written it. -/
theorem fetchWord_byte_unwritten {m : Memory} {a n j : Nat} (hj : j < 4) (h : m.read (a + j) = none) :
    (m.fetchWord a n).extractLsb' (8 * j) 8 = Config.freeByte (n + j) := by
  rw [fetchWord_byte m a n hj, memory_fetch_unwritten h]

/-- A cell of a window word is its two bytes (20_memory R48). -/
theorem extract_cell (w : Word) (i : Nat) :
    w.extractLsb' (16 * i) 16 = w.extractLsb' (8 * (2 * i + 1)) 8 ++ w.extractLsb' (8 * (2 * i)) 8 := by
  rw [BitVec.extractLsb'_append_extractLsb'_eq_extractLsb' (by omega)]
  congr 1
  omega

/-- Settles O17: a window word is four fetches, and a fetch of an unwritten byte is its draw. -/
theorem unwrittenStorageReadsAsFreeValues : Obligations.UnwrittenStorageReadsAsFreeValues := by
  intro s k rest
  refine ⟨fun hk => ⟨_, step_read_capture s rest hk, fun j => fetchWord_byte_unwritten, fun i hi hlo hhi => ?_⟩,
    fun hk hsize => ⟨_, step_read_ring s rest hk hsize, fun j => fetchWord_byte_unwritten⟩⟩
  rw [show 0x1000 + 2 * (2 * k + i) = 0x1000 + 4 * k + 2 * i by omega] at hlo hhi
  rw [Nat.add_assoc] at hhi
  rw [extract_cell, fetchWord_byte_unwritten (by omega) hlo, fetchWord_byte_unwritten (by omega) hhi]
  rfl

end Sys2Proof.Machine

/-! ## The writers of each element (10_state R22, R23, R24) -/

namespace Sys2Proof.Machine

open Sys2Proof

/-- The commands that write RESULT (10_state R24). -/
theorem okState_result_writers {i : Instr} {s : State} (h : (okState i s).result ≠ s.result) :
    (∃ r, i = .dsUpdate r) ∨ (∃ r, i = .dsGet r) ∨ (∃ r x, i = .cmpEncode r x) ∨ (∃ r, i = .cmpEncodeF r) ∨
      (∃ r h, i = .pipeHalf r h) := by
  cases i with
  | dsUpdate | dsGet | cmpEncode | cmpEncodeF | pipeHalf => simp
  | ringAppend r b =>
    rw [okState_ringAppend_frame] at h
    exact absurd rfl h
  | _ => exact absurd rfl h

/-- Settles O38: a refused command changes LAST_STATUS alone. -/
theorem argAndResultHaveTheirWriters : Obligations.ArgAndResultHaveTheirWriters := by
  intro i s t h
  rcases exec_next h with ⟨rfl, -⟩ | ⟨rfl, -⟩ | ⟨rfl, -⟩
  · exact ⟨rfl, fun hne => absurd rfl hne⟩
  · exact ⟨rfl, fun hne => absurd rfl hne⟩
  · exact ⟨okState_arg i s, fun hne => ⟨okState_lastStatus i s, okState_result_writers hne⟩⟩

/-- The commands that write the elements of the capture unit (10_state R26, R27, R28). -/
theorem okState_capture_writers (i : Instr) (s : State) :
    let t := okState i s
    ((t.ht = true → s.ht = true) ∧ (t.tc = true → s.tc = true)) ∧
    ((t.capCfg ≠ s.capCfg ∨ t.channel ≠ s.channel ∨ t.len ≠ s.len) → ∃ r c, i = .capConfig r c) ∧
    (t.rate ≠ s.rate → ∃ r, i = .capStart r) ∧
    (t.run ≠ s.run → (∃ r, i = .capStart r) ∨ (∃ r, i = .capStop r)) ∧
    ((t.ht ≠ s.ht ∨ t.tc ≠ s.tc) → (∃ r m, i = .capClear r m) ∨ (∃ r, i = .capStart r) ∨ (∃ r c, i = .capConfig r c)) ∧
    ((t.widx ≠ s.widx ∨ t.halfValid0 ≠ s.halfValid0 ∨ t.halfValid1 ≠ s.halfValid1) →
      (∃ r, i = .capStart r) ∨ (∃ r c, i = .capConfig r c)) := by
  cases i with
  | ringAppend r b =>
    rw [okState_ringAppend_frame]
    simp
  | pipeHalf r h =>
    rw [okState_pipeHalf_frame]
    simp
  | _ => simp [okState]

/-- The commands that write the elements of the decimator (10_state R31). -/
theorem okState_decimator_writers (i : Instr) (s : State) :
    let t := okState i s
    ((t.dsCfg ≠ s.dsCfg ∨ t.ratio ≠ s.ratio) → ∃ r q, i = .dsConfig r q) ∧
    ((t.count ≠ s.count ∨ t.sample ≠ s.sample ∨ t.delay ≠ s.delay) →
      (∃ r q, i = .dsConfig r q) ∨ (∃ r, i = .dsUpdate r) ∨ (∃ r h, i = .pipeHalf r h)) ∧
    (t.ready ≠ s.ready →
      (∃ r q, i = .dsConfig r q) ∨ (∃ r, i = .dsUpdate r) ∨ (∃ r, i = .dsGet r) ∨ (∃ r h, i = .pipeHalf r h)) := by
  cases i with
  | ringAppend r b =>
    rw [okState_ringAppend_frame]
    simp
  | pipeHalf r h =>
    rw [okState_pipeHalf_frame]
    simp
  | _ => simp [okState]

/-- The commands that write the elements of the ring (10_state R34, R35). -/
theorem okState_ring_writers (i : Instr) (s : State) :
    let t := okState i s
    (t.drain ≠ s.drain → (∃ r, i = .ringDrain r) ∨ (∃ r, i = .ringReset r)) ∧
    (t.ringMem ≠ s.ringMem → (∃ r b, i = .ringAppend r b) ∨ (∃ r h, i = .pipeHalf r h)) ∧
    ((t.fill ≠ s.fill ∨ t.pos ≠ s.pos ∨ t.ovfCount ≠ s.ovfCount ∨ t.ovfLatch ≠ s.ovfLatch) →
      (∃ r b, i = .ringAppend r b) ∨ (∃ r h, i = .pipeHalf r h) ∨ (∃ r, i = .ringReset r)) := by
  cases i with
  | pipeHalf r h =>
    rw [okState_pipeHalf_frame]
    simp
  | _ => simp [okState]

/-- Settles O39: a refused command changes LAST_STATUS alone, one that completes the elements it is a writer of. -/
theorem elementsHaveTheirWriters : Obligations.ElementsHaveTheirWriters := by
  intro i s t h
  rcases exec_next h with ⟨rfl, -⟩ | ⟨rfl, -⟩ | ⟨rfl, -⟩
  · simp
  · simp
  · obtain ⟨flags, config, rate, run, flagWriters, cells⟩ := okState_capture_writers i s
    obtain ⟨ratio, count, ready⟩ := okState_decimator_writers i s
    exact ⟨⟨okState_capMem i s, flags⟩, config, rate, run, flagWriters, cells, ratio, count, ready, okState_ring_writers i s⟩

end Sys2Proof.Machine

/-! ## Reset (70_reset_and_hazards R175) -/

namespace Sys2Proof.Machine

open Sys2Proof

/-- Settles O45, from the reset values of each unit. -/
theorem invariantsHoldAtReset : Obligations.InvariantsHoldAtReset := by
  have legal : ∀ p : Params, p.Wf → (State.resetWith p).Inv ∧ (State.resetWith p).StorageInv ∧
      (State.resetWith p).CapturedInv ∧ (State.resetWith p).CodesInv := fun p hp =>
    ⟨resetWith_inv hp, resetWith_storageInv p, resetWith_capturedInv p, resetWith_codesInv p⟩
  exact ⟨legal, legal Config.build.val Config.build.legal⟩

/-- A step whose event is a reset gives every element its reset value (70_reset_and_hazards R175). -/
theorem step_reset {s : State} {rest : List Event} (h : s.schedule = .reset :: rest) :
    step s = .next (resetBlock { s with schedule := rest }) := by
  rw [step, h]
  rfl

/-- STATUS reads 0 after a reset (20_memory R42). -/
theorem busWord_status_resetBlock (s : State) : busWord (resetBlock s) 0x000C = 0 := by
  show statusWord (resetBlock s) = 0
  simp [statusWord, resetBlock, State.resetWith, State.ringPending, Status.code]

/-- Settles O48: the reset state is that of a reset event, and each element of such a state is its reset value. -/
theorem resetLeavesTheResetValues : Obligations.ResetLeavesTheResetValues := by
  intro s h
  have hreset : ∃ u, s = resetBlock u := by
    rcases h with rfl | ⟨u, rest, hu, h⟩
    · exact ⟨State.reset, rfl⟩
    · rw [step_reset hu] at h
      cases h
      exact ⟨_, rfl⟩
  obtain ⟨u, rfl⟩ := hreset
  refine ⟨?_, ?_, ?_, ?_, ?_, ?_, ?_, ?_, ?_, ?_, ?_, ?_, ?_, ?_, ?_, ?_, ?_, ?_, ?_, ?_, ?_, ?_, ?_, ?_, fun a => ⟨?_, ?_⟩,
    busWord_status_resetBlock u⟩
  all_goals rfl

end Sys2Proof.Machine

/-! ## Bus accesses (20_memory R40 to R52) -/

namespace Sys2Proof.Machine

open Sys2Proof Sys2Proof.Statements

/-! ### One event of the schedule -/

/-- A step with an event scheduled performs it (20_memory R55). -/
theorem step_event {s : State} {e : Event} {rest : List Event} (h : s.schedule = e :: rest) :
    step s = runEvent e { s with schedule := rest } := by
  rw [step, h]

/-- An access is well formed when it is 32 bits wide and aligned (20_memory R49). -/
@[simp] theorem accessLegal_iff {off size : Nat} : accessLegal off size = true ↔ size = 4 ∧ off % 4 = 0 := by
  simp [accessLegal]

/-- Any other access is malformed (20_memory R49). -/
theorem accessLegal_eq_false {off size : Nat} (h : size ≠ 4 ∨ off % 4 ≠ 0) : accessLegal off size = false := by
  rw [Bool.eq_false_iff, Ne, accessLegal_iff]
  omega

/-- A 32-bit aligned read below the storage windows returns its word and changes nothing else (20_memory R52). -/
theorem step_read_low {s : State} {off : Nat} {v : Word} {rest : List Event} (h : s.schedule = .read off 4 :: rest)
    (hlo : off < 0x1000) (ha : off % 4 = 0) (hv : busWord s off = v) :
    step s = .next { s with schedule := rest, readData := v } := by
  have hlegal : accessLegal off 4 = true := accessLegal_iff.2 ⟨rfl, ha⟩
  rw [step_event h, runEvent, busRead, if_neg (by omega), hlegal, ← hv]
  simp only [Bool.not_true, Bool.false_eq_true, if_false, Nat.not_le.2 hlo]
  rfl

/-- A 32-bit aligned write in the window: a command at CMD, ARG at ARG, nothing anywhere else (20_memory R51). -/
theorem step_write {s : State} {off : Nat} {w : Word} {rest : List Event} (h : s.schedule = .write off 4 w :: rest)
    (hhi : off < 0x4000) (ha : off % 4 = 0) :
    step s =
      if off = 0x0000 then issue w { s with schedule := rest }
      else if off = 0x0004 then .next { s with schedule := rest, arg := w }
      else .next { s with schedule := rest } := by
  have hlegal : accessLegal off 4 = true := accessLegal_iff.2 ⟨rfl, ha⟩
  rw [step_event h, runEvent, busWrite, if_neg (by omega), hlegal]
  rfl

/-! ### The word of each region of the address map (20_memory R40) -/

/-- A read below 0x0100 returns a register. -/
theorem busWord_register (s : State) {off : Nat} (h : off < 0x100) : busWord s off = registerWord s off :=
  if_pos h

/-- `Z0[k]` stands at `0x0100 + 8k` (20_memory R44). -/
theorem busWord_z0 (s : State) {k : Nat} (hk : k < 16) : busWord s (0x0100 + 8 * k) = (s.delay.getD k ⟨0, 0⟩).z0 := by
  rw [busWord, if_neg (by omega), if_pos (by omega), fstateWord, if_pos (by omega),
    show (0x0100 + 8 * k - 0x100) / 8 = k by omega]

/-- `Z1[k]` stands at `0x0104 + 8k` (20_memory R44). -/
theorem busWord_z1 (s : State) {k : Nat} (hk : k < 16) : busWord s (0x0104 + 8 * k) = (s.delay.getD k ⟨0, 0⟩).z1 := by
  rw [busWord, if_neg (by omega), if_pos (by omega), fstateWord, if_neg (by omega),
    show (0x0104 + 8 * k - 0x100) / 8 = k by omega]

/-- A reserved offset reads 0 (20_memory R45). -/
theorem busWord_reserved (s : State) {off : Nat} (h : reservedOffset off) : busWord s off = 0 := by
  rcases h with ⟨hlo, hhi⟩ | ⟨hlo, hhi⟩
  · rw [busWord_register s hhi]
    unfold registerWord
    split
    case h_19 => rfl
    all_goals omega
  · rw [busWord, if_neg (by omega), if_neg (by omega), if_pos hhi]

/-- A read in the capture window returns the storage word at its offset (20_memory R46). -/
theorem busWord_capture (s : State) {off : Nat} (hlo : 0x1000 ≤ off) (hhi : off < 0x2000) :
    busWord s off = s.capMem.fetchWord off s.draws := by
  rw [busWord, if_neg (by omega), if_neg (by omega), if_neg (by omega), if_pos hhi]

/-- A read in the ring window returns the ring word at its offset (20_memory R47). -/
theorem busWord_ring (s : State) {off : Nat} (h : 0x2000 ≤ off) : busWord s off = ringWord s off := by
  rw [busWord, if_neg (by omega), if_neg (by omega), if_neg (by omega), if_neg (by omega)]

/-- A read at or past the end of the ring storage returns 0 (20_memory R47). -/
theorem ringWord_past (s : State) {off : Nat} (h : 0x2000 + s.params.ringN * s.params.slotSize ≤ off) :
    ringWord s off = 0 :=
  if_neg (by omega)

/-! ### The FSTATE window -/

/-- A delay register of a section at or above `NSEC(RATIO)` is 0 (10_state R32). -/
theorem delay_above_sections {s : State} (h : s.DecimatorInv) {k : Nat} (hk : s.coef.sections.length ≤ k) :
    s.delay.getD k ⟨0, 0⟩ = ⟨0, 0⟩ := by
  obtain ⟨-, -, -, hzero⟩ := h
  generalize hn : (if s.dsCfg then s.coef.sections.length else 0) = n at hzero
  have hnk : n ≤ k := by
    split at hn <;> omega
  have hget : s.delay[k]? = (s.delay.drop n)[k - n]? := by
    rw [List.getElem?_drop, Nat.add_sub_cancel' hnk]
  rw [List.getD_eq_getElem?_getD, hget, hzero, List.getElem?_replicate]
  split <;> rfl

/-- Settles O12: the two words of section `k`, and what the invariants say of the registers no section uses. -/
theorem fstateWindowShowsDelayRegisters : Obligations.FstateWindowShowsDelayRegisters := by
  intro s k rest hk
  have reads : ∀ d, s.delay.getD k ⟨0, 0⟩ = d →
      step { s with schedule := .read (0x0100 + 8 * k) 4 :: rest } = .next { s with schedule := rest, readData := d.z0 } ∧
      step { s with schedule := .read (0x0104 + 8 * k) 4 :: rest } = .next { s with schedule := rest, readData := d.z1 } := by
    rintro d rfl
    exact ⟨step_read_low rfl (by omega) (by omega) (busWord_z0 _ hk),
      step_read_low rfl (by omega) (by omega) (busWord_z1 _ hk)⟩
  refine ⟨fun d hd => reads d ?_, fun ⟨_, _, hds, _⟩ hlen => reads ⟨0, 0⟩ (delay_above_sections hds hlen)⟩
  rw [List.getD_eq_getElem?_getD, hd, Option.getD_some]

/-! ### The storage windows -/

/-- A written cell is its two bytes, whatever the draws. -/
theorem fetch_capCell {s : State} {i : Nat} {x : Half} (h : s.capCell i = some x) (n n' : Nat) :
    s.capMem.fetch (cellAddr i + 1) n ++ s.capMem.fetch (cellAddr i) n' = x := by
  unfold State.capCell at h
  split at h
  case h_1 lo hi hlo hhi =>
    rw [memory_fetch_written hlo, memory_fetch_written hhi]
    exact Option.some.inj h
  case h_2 => cases h

/-- A storage word is its two halves, the lower one in bits 15:0 (20_memory R48). -/
theorem fetchWord_halves (m : Memory) (a n : Nat) :
    m.fetchWord a n =
      (m.fetch (a + 2 + 1) (n + 3) ++ m.fetch (a + 2) (n + 2)) ++ (m.fetch (a + 1) (n + 1) ++ m.fetch a n) := by
  apply BitVec.eq_of_toNat_eq
  erw [fetchWord_toNat, append_toNat, append_toNat, append_toNat]
  rw [show a + 2 + 1 = a + 3 from rfl]
  omega

/-- Settles O13: the pair at `0x1000 + 4k` is cells `2k` and `2k + 1`. -/
theorem captureWindowShowsPairs : Obligations.CaptureWindowShowsPairs := by
  intro s k x y rest hk hs hx hy
  have hword : s.capMem.fetchWord (0x1000 + 4 * k) s.draws = y ++ x := by
    rw [show 0x1000 + 4 * k = cellAddr (2 * k) by unfold cellAddr; omega, fetchWord_halves, ← cellAddr_succ,
      fetch_capCell hx, fetch_capCell hy]
  have hread := step_read_capture s rest hk
  rwa [← hs, hword] at hread

/-- Byte `4k + j` of the ring storage is a byte of slot `4k / SLOT_SIZE` (20_memory R47). -/
theorem slotAddr_div_mod (p : Params) (i j : Nat) :
    slotAddr p (i / p.slotSize) (i % p.slotSize + j) = 0x2000 + i + j := by
  have := Nat.div_add_mod' i p.slotSize
  unfold slotAddr
  omega

/-- Settles O14: byte `j` of a window word is a fetch of its own, and nothing is stored past the slots. -/
theorem ringWindowShowsSlotBytes : Obligations.RingWindowShowsSlotBytes := by
  intro s k rest _ hk hs
  constructor
  · intro hsize
    have hread := step_read_ring s rest hk hsize
    rw [← hs] at hread
    refine ⟨_, hread, fun j b hj hb => ?_⟩
    rw [State.ringByte, slotAddr_div_mod] at hb
    rw [fetchWord_byte _ _ _ hj, memory_fetch_written hb]
  · intro hsize
    have hread := step_read_window s (off := 0x2000 + 4 * k) rest (by omega) (by omega) (by omega)
    rwa [← hs, busWord_ring _ (by omega), ringWord_past { s with schedule := rest } (Nat.add_le_add_left hsize _)] at hread

/-! ### Reads have no side effect -/

/-- A word no draw is part of does not depend on the draw number (10_state R39). -/
theorem busWord_draws {s : State} {off : Nat} (h : readsNoDraw s off) (n : Nat) :
    busWord { s with draws := n } off = busWord s off := by
  have written : ∀ m : Memory, (∀ k, k < 4 → m.read (off + k) ≠ none) → m.fetchWord off n = m.fetchWord off s.draws :=
    fun m hm => memory_fetchWord_written (fun _ _ => rfl) (fun k hk => Option.isSome_iff_ne_none.2 (hm k hk)) _ _
  by_cases hlo : off < 0x1000
  · simp only [busWord, hlo, if_true]
    rfl
  by_cases hcap : off < 0x2000
  · rw [busWord_capture _ (by omega) hcap, busWord_capture _ (by omega) hcap]
    refine written s.capMem ?_
    rcases h with h | ⟨-, h⟩ | ⟨h, -⟩ | h
    case inr.inl => exact h
    all_goals omega
  · rw [busWord_ring _ (by omega), busWord_ring _ (by omega)]
    rcases h with h | ⟨h, -⟩ | ⟨-, h⟩ | h
    · omega
    · omega
    · simp only [ringWord, written s.ringMem h]
    · rw [ringWord_past s h, ringWord_past { s with draws := n } h]

/-- Settles O16: both reads return `busWord`, the second at another draw number. -/
theorem readsHaveNoSideEffect : Obligations.ReadsHaveNoSideEffect := by
  intro s t off rest hs ht
  rw [step_event hs] at ht
  obtain ⟨hhi, -, ha, rfl⟩ := busRead_next ht
  refine ⟨rfl, fun h => ?_⟩
  rw [step_event rfl, runEvent, busRead, if_neg (by omega), accessLegal_iff.2 ⟨rfl, ha⟩]
  exact ⟨_, rfl, busWord_draws h _⟩

/-! ### Writes, malformed accesses, reserved offsets -/

/-- Settles O7, as the outcome of a write at each offset. -/
theorem writesReachOnlyCmdAndArg : Obligations.WritesReachOnlyCmdAndArg :=
  fun _ _ _ _ => step_write

/-- A malformed read in the window is a bus error (20_memory R49). -/
theorem busRead_malformed (s : State) {off size : Nat} (hhi : off < 0x4000) (h : size ≠ 4 ∨ off % 4 ≠ 0) :
    busRead off size s = .fault .busError := by
  rw [busRead, if_neg (by omega), accessLegal_eq_false h]
  rfl

/-- A malformed write in the window is a bus error, at CMD too (20_memory R49, R50). -/
theorem busWrite_malformed (s : State) {off size : Nat} (w : Word) (hhi : off < 0x4000) (h : size ≠ 4 ∨ off % 4 ≠ 0) :
    busWrite off size w s = .fault .busError := by
  rw [busWrite, if_neg (by omega), accessLegal_eq_false h]
  rfl

/-- Settles O8: a read and a write, each by its own lemma. -/
theorem malformedAccessIsABusError : Obligations.MalformedAccessIsABusError := by
  intro s off size w rest hhi hform
  constructor
  · rw [step_event rfl]
    exact busRead_malformed _ hhi hform
  · rw [step_event rfl]
    exact busWrite_malformed _ w hhi hform

/-- Settles O15: a reserved offset lies below the storage windows and is neither CMD nor ARG. -/
theorem reservedOffsetsReadZeroAndIgnoreWrites : Obligations.ReservedOffsetsReadZeroAndIgnoreWrites := by
  intro s off w rest hoff ha
  refine ⟨step_read_low rfl (by omega) ha (busWord_reserved _ hoff), ?_⟩
  rw [step_write rfl (by omega) ha, if_neg (by omega), if_neg (by omega)]

/-! ### Registers -/

/-- Every row of the register map is an aligned offset below 0x0040, and its element is the register there
(20_memory R40). -/
theorem registerMap_row (s : State) :
    ∀ e ∈ registerMap s, e.1 < 0x40 ∧ e.1 % 4 = 0 ∧ registerWord s e.1 = e.2 := by
  simp [registerMap, registerWord, State.coef]

/-- Settles O9, row by row of the map. -/
theorem registerReadsReturnTheirElement : Obligations.RegisterReadsReturnTheirElement := by
  intro s off v rest hs hrow
  obtain ⟨hlt, ha, hword⟩ := registerMap_row s (off, v) hrow
  dsimp only at hlt ha hword
  exact step_read_low hs (by omega) ha ((busWord_register s (by omega)).trans hword)

/-- A bit as a number, in the library's spelling. -/
theorem bit_eq_toNat (b : Bool) : bit b = b.toNat := by
  cases b <;> rfl

/-- The code of a status as a number (60_exceptions R156). -/
theorem statusCode_eq_code (c : Status) : statusCode c = c.code.toNat := by
  cases c <;> rfl

/-- RING_PENDING as the rule writes it (20_memory R42). -/
theorem ringPending_eq (s : State) : s.ringPending = decide (s.fill ≠ s.drain) := by
  rw [State.ringPending, bne, beq_eq_decide, decide_not]

/-- The STATUS word as a number: each flag at its bit, the code from bit 8 on (20_memory R42). -/
theorem statusWord_toNat (s : State) :
    (statusWord s).toNat =
      bit s.ht + 2 * bit s.tc + 4 * bit s.run + 8 * bit s.capCfg + 16 * bit s.dsCfg + 32 * bit s.ready +
        64 * bit (decide (s.fill ≠ s.drain)) + 128 * bit s.ovfLatch + 256 * statusCode s.lastStatus := by
  unfold statusWord
  repeat erw [append_toNat]
  simp only [BitVec.toNat_ofBool, bit_eq_toNat, statusCode_eq_code, ← ringPending_eq, BitVec.toNat_ofNat]
  omega

/-- Settles O10: the word by its fields, and the reset state as the state a reset leaves. -/
theorem statusWordHasItsFields : Obligations.StatusWordHasItsFields := by
  refine ⟨fun s rest => step_read_low rfl (by omega) (by omega) ?_, busWord_status_resetBlock State.reset⟩
  rw [← statusWord_toNat s, BitVec.ofNat_toNat, BitVec.setWidth_eq]
  rfl

/-- RING_PARAM is its two fields (20_memory R43). -/
theorem registerWord_ringParam (s : State) (h : s.params.Wf) :
    registerWord s 0x0040 = BitVec.ofNat 32 (s.params.ringN * 65536 + s.params.slotSize) := by
  obtain ⟨-, -, ⟨-, hn⟩, ⟨-, -, hsize⟩, -⟩ := h
  apply BitVec.eq_of_toNat_eq
  unfold registerWord
  erw [append_toNat, append_toNat]
  simp only [BitVec.toNat_ofNat]
  omega

/-- Settles O11: RING_PARAM by its fields, CAP_PARAM a constant. -/
theorem parameterRegistersReadTheirFields : Obligations.ParameterRegistersReadTheirFields :=
  fun s _ h =>
    ⟨step_read_low rfl (by omega) (by omega) (registerWord_ringParam s h), step_read_low rfl (by omega) (by omega) rfl⟩

end Sys2Proof.Machine

/-! ## Command words (30_encoding R60 to R66) -/

namespace Sys2Proof.Machine

open Sys2Proof Sys2Proof.Statements

/-! ### The fields of `IMM` by arithmetic -/

/-- The two parts of a concatenation are the quotient and the remainder by the lower part's range. -/
theorem ofNat_div_mod_append {m n d : Nat} (x : BitVec m) (y : BitVec n) (hd : d = 2 ^ n) :
    BitVec.ofNat m ((x ++ y).toNat / d) = x ∧ BitVec.ofNat n ((x ++ y).toNat % d) = y := by
  obtain ⟨hdiv, hmod⟩ := (Nat.div_mod_unique (by positivity)).2 ⟨Nat.add_comm _ _, y.isLt⟩
  rw [append_toNat, hd, Nat.mul_comm, hdiv, hmod]
  exact ⟨BitVec.eq_of_toNat_eq (by simp), BitVec.eq_of_toNat_eq (by simp)⟩

/-- A number in range is the concatenation of its quotient and its remainder. -/
theorem toNat_append_ofNat_div_mod {m n d k : Nat} (hk : k < 2 ^ (m + n)) (hd : d = 2 ^ n) :
    (BitVec.ofNat m (k / d) ++ BitVec.ofNat n (k % d)).toNat = k := by
  rw [pow_add, Nat.mul_comm] at hk
  rw [append_toNat, BitVec.toNat_ofNat, BitVec.toNat_ofNat, hd, Nat.mod_eq_of_lt (Nat.div_lt_of_lt_mul hk), Nat.mod_mod,
    Nat.div_add_mod']

/-- The bits of `IMM` from `start` up are a quotient of `IMM` (30_encoding R60). -/
theorem extract_imm_div {start len : Nat} (w : Word) (h : start + len = 24) :
    w.extractLsb' start len = BitVec.ofNat len (w.toNat % 2 ^ 24 / 2 ^ start) := by
  apply BitVec.eq_of_toNat_eq
  rw [extract_toNat, BitVec.toNat_ofNat, ← h, pow_add, Nat.mod_mul_right_div_self, Nat.mod_mod]

/-- The low bits of `IMM` are a remainder of `IMM` (30_encoding R60). -/
theorem extract_imm_mod {len : Nat} (w : Word) (h : len ≤ 24) :
    w.extractLsb' 0 len = BitVec.ofNat len (w.toNat % 2 ^ 24 % 2 ^ len) := by
  apply BitVec.eq_of_toNat_eq
  rw [extract_toNat, BitVec.toNat_ofNat, Nat.mod_mod, Nat.mod_mod_of_dvd _ (pow_dvd_pow 2 h), pow_zero, Nat.div_one]

/-! ### The opcode table by arithmetic -/

/-- The table gives a command back from its opcode and its `IMM` (30_encoding R62, R64). -/
theorem commandOf_opcode_imm (i : Instr) : commandOf i.opcode.toNat i.imm.toNat = some i := by
  cases i
  case capConfig r x | capClear r x | dsConfig r x | cmpEncode r x | ringAppend r x | pipeHalf r x =>
    simpa [commandOf, Instr.opcode, Instr.imm] using ofNat_div_mod_append r x rfl
  all_goals simp [commandOf, Instr.opcode, Instr.imm]

/-- The table has no command at a reserved opcode (30_encoding R65). -/
theorem commandOf_reserved {opc : Nat} (imm : Nat) (h : opc ∉ definedOpcodes) : commandOf opc imm = none := by
  simp only [definedOpcodes, List.mem_cons, List.not_mem_nil, or_false, not_or] at h
  simp only [commandOf, h, if_false]

/-- A command the table gives has that opcode and that `IMM` (30_encoding R62, R64). -/
theorem opcode_imm_of_commandOf {opc imm : Nat} {i : Instr} (himm : imm < 2 ^ 24) (h : commandOf opc imm = some i) :
    i.opcode.toNat = opc ∧ i.imm.toNat = imm := by
  have hmem : opc ∈ definedOpcodes := by
    by_contra hres
    rw [commandOf_reserved imm hres] at h
    cases h
  fin_cases hmem <;> obtain rfl := Option.some.inj h.symm <;> refine ⟨rfl, ?_⟩
  -- The six commands with an operand; the others take the whole of `IMM` as reserved.
  any_goals exact toNat_append_ofNat_div_mod himm rfl
  all_goals exact Nat.mod_eq_of_lt himm

/-! ### Decoding -/

/-- Decoding looks the word's two fields up in the table (30_encoding R60, R64, R65). -/
theorem decode_eq_commandOf (w : Word) :
    decode w = (commandOf (opcOf w).toNat (w.toNat % 2 ^ 24)).elim (.error (.reservedOpcode (opcOf w))) .ok := by
  unfold decode
  split
  case h_15 =>
    have hres : (opcOf w).toNat ∉ definedOpcodes := by
      simp only [definedOpcodes, List.mem_cons, List.not_mem_nil, or_false]
      tauto
    rw [commandOf_reserved _ hres, Option.elim_none]
  all_goals
    next hopc =>
      rw [hopc]
      simp (disch := decide) [commandOf, extract_imm_div, extract_imm_mod]

/-- A word decodes to a command exactly when the table has that command for its two fields. -/
theorem decode_eq_ok_iff {w : Word} {i : Instr} :
    decode w = .ok i ↔ commandOf (opcOf w).toNat (w.toNat % 2 ^ 24) = some i := by
  rw [decode_eq_commandOf]
  cases commandOf (opcOf w).toNat (w.toNat % 2 ^ 24) <;> simp

/-- A word with a reserved opcode does not decode (30_encoding R65). -/
theorem decode_reserved {w : Word} (h : (opcOf w).toNat ∉ definedOpcodes) :
    decode w = .error (.reservedOpcode (opcOf w)) := by
  rw [decode_eq_commandOf, commandOf_reserved _ h, Option.elim_none]

/-- Settles O3: the table has a command for the two fields, or it has none. -/
theorem decodeReadsOpcAndImmFields : Obligations.DecodeReadsOpcAndImmFields := by
  intro w
  rw [← opcOf_toNat, BitVec.ofNat_toNat, BitVec.setWidth_eq, decode_eq_commandOf]
  cases commandOf (opcOf w).toNat (w.toNat % 2 ^ 24) <;> rfl

/-- Settles O1: the encoded word has the command's opcode and `IMM` as its two fields. -/
theorem decodeOfEncodeIsTheCommand : Obligations.DecodeOfEncodeIsTheCommand := by
  intro i
  have himm : (encode i).toNat % 2 ^ 24 = i.imm.toNat := by
    rw [encode_toNat, Nat.mul_add_mod', Nat.mod_eq_of_lt i.imm.isLt]
  rw [decode_eq_ok_iff, opcOf_encode, himm]
  exact commandOf_opcode_imm i

/-- Settles O2: the command has the word's two fields as its opcode and `IMM`. -/
theorem encodeOfDecodeIsTheWord : Obligations.EncodeOfDecodeIsTheWord := by
  intro w i h
  obtain ⟨hopc, himm⟩ := opcode_imm_of_commandOf (Nat.mod_lt _ (by positivity)) (decode_eq_ok_iff.1 h)
  apply BitVec.eq_of_toNat_eq
  rw [encode_toNat, hopc, himm, opcOf_toNat, Nat.div_add_mod']

/-- Settles O4, by running the decoder. -/
theorem writtenOutWordsDecode : Obligations.WrittenOutWordsDecode := by
  unfold Obligations.WrittenOutWordsDecode
  decide

/-! ### Issuing a command word -/

/-- A 32-bit write at CMD issues its word (20_memory R51). -/
theorem step_write_cmd {s : State} {w : Word} {rest : List Event} (h : s.schedule = .write 0x0000 4 w :: rest) :
    step s = issue w { s with schedule := rest } := by
  rw [step_write h (by omega) (by omega), if_pos rfl]

/-- Settles O5: the write issues the word, and issuing it executes what it decodes to. -/
theorem cmdWriteStepExecutesTheDecodedCommand : Obligations.CmdWriteStepExecutesTheDecodedCommand := by
  intro s w rest i hs hw
  rw [step_write_cmd hs, issue, hw]

/-- Settles O6: a word with a reserved opcode does not decode. -/
theorem reservedOpcodeEndsWithBadOpcode : Obligations.ReservedOpcodeEndsWithBadOpcode := by
  refine ⟨by decide +kernel, fun s w rest hs hw => ?_⟩
  rw [← opcOf_toNat] at hw
  rw [step_write_cmd hs, issue, decode_reserved hw]
  rfl

/-- Settles O36: the law of a command with a reserved bit, with `State.raise` written out. -/
theorem reservedImmBitsAreBadOperand : Obligations.ReservedImmBitsAreBadOperand :=
  fun _ _ => exec_reserved

end Sys2Proof.Machine

/-! ## The filter and the decimator (40_filter_downsampler R78 to R86) -/

namespace Sys2Proof.Machine

open Sys2Proof Sys2Proof.Statements

/-! ### The cascade by index (40_filter_downsampler R78) -/

/-- The running value before section `k + 1` is that before section `k` of the cascade without its first section. -/
theorem running_cons (c : Section) (cs : List Section) (d : Delay) (ds : List Delay) (v : Word) (k : Nat) :
    running (c :: cs) (d :: ds) v (k + 1) = running cs ds (sectionV c d v) k := by
  induction k with
  | zero => rfl
  | succ k ih =>
    rw [running, ih]
    rfl

/-- The value of a cascade is the running value after its last section. -/
theorem cascade_value {cs : List Section} {ds : List Delay} (v : Word) (h : cs.length ≤ ds.length) :
    (cascade cs ds v).2 = running cs ds v cs.length := by
  induction cs generalizing ds v with
  | nil => rfl
  | cons c cs ih =>
    cases ds with
    | nil => exact absurd h (Nat.not_succ_le_zero _)
    | cons d ds =>
      rw [List.length_cons, running_cons]
      exact ih _ (Nat.le_of_succ_le_succ h)

/-- The registers of section `k` after a cascade, from the running value before that section. -/
theorem cascade_registers {cs : List Section} {ds : List Delay} (v : Word) {k : Nat} {c : Section} {d : Delay}
    (hc : cs[k]? = some c) (hd : ds[k]? = some d) :
    (cascade cs ds v).1[k]? = some ⟨sectionW c d (running cs ds v k), d.z0⟩ := by
  induction cs generalizing ds v k with
  | nil => cases hc
  | cons c' cs ih =>
    cases ds with
    | nil => cases hd
    | cons d' ds =>
      cases k with
      | zero =>
        obtain rfl := Option.some.inj hc
        obtain rfl := Option.some.inj hd
        rfl
      | succ k =>
        rw [running_cons]
        exact ih _ hc hd

/-- The registers at or above the number of sections stay (10_state R32). -/
theorem cascade_above (cs : List Section) (ds : List Delay) (v : Word) {k : Nat} (h : cs.length ≤ k) :
    (cascade cs ds v).1[k]? = ds[k]? := by
  obtain ⟨j, rfl⟩ := Nat.exists_eq_add_of_le h
  rw [← List.getElem?_drop, cascade_drop, List.getElem?_drop]

/-- Each ratio of the table has its set in use (10_state R33). -/
theorem coefOf_of_mem_coefTable {p : Params} {r : Byte} {c : CoefSet} (h : (r.toNat, c) ∈ coefTable p) :
    coefOf p r = c := by
  have hr : BitVec.ofNat 8 r.toNat = r := by simp
  simp only [coefTable, List.mem_cons, List.not_mem_nil, or_false, Prod.mk.injEq] at h
  rcases h with ⟨h, rfl⟩ | ⟨h, rfl⟩ | ⟨h, rfl⟩ | ⟨h, rfl⟩ | ⟨h, rfl⟩
  all_goals
    rw [← hr, h]
    rfl

/-- Settles O25, by the cascade's value and its registers below and above the number of sections. -/
theorem filterStepFollowsTheCascade : Obligations.FilterStepFollowsTheCascade :=
  fun s _ => ⟨fun _ => coefOf_of_mem_coefTable, fun hlen =>
    ⟨cascade_value _ hlen, cascade_length _ s.delay _, fun _ _ _ => cascade_registers _,
      fun _ => cascade_above _ s.delay _⟩⟩

/-! ### The three commands (40_filter_downsampler R82, R83, R84) -/

/-- The ratios DS_CONFIG takes, as a list (40_filter_downsampler R82). -/
theorem ratioLegal_iff_mem {r : Byte} : ratioLegal r = true ↔ r.toNat ∈ [5, 10, 20, 50, 100] := by
  simp [ratioLegal_iff]

/-- Settles O23: DS_CONFIG runs exactly with no reserved bit and a legal ratio. -/
theorem dsConfigConstructsTheDecimator : Obligations.DsConfigConstructsTheDecimator := by
  intro s rsv r
  split
  case isTrue h =>
    exact exec_complete (i := .dsConfig rsv r) (beq_iff_eq.2 h.1) (ratioLegal_iff_mem.2 h.2) trivial trivial
  case isFalse h =>
    by_cases hrsv : rsv = 0
    · exact exec_badOperand (beq_iff_eq.2 hrsv) fun hr => h ⟨hrsv, ratioLegal_iff_mem.1 hr⟩
    · exact exec_reserved (beq_eq_false_iff_ne.2 hrsv)

/-- An update that completes a cycle and one that does not (40_filter_downsampler R80). -/
theorem dsUpdateCore_eq (x : Word) (s : State) : dsUpdateCore x s =
    if s.count.toNat + 1 = s.ratio.toNat then
      { s with delay := (filterStep x s).1, ready := true, sample := (filterStep x s).2, count := 0 }
    else { s with delay := (filterStep x s).1, count := s.count + 1 } := by
  have hcount : BitVec.ofNat 8 (s.count.toNat + 1) = s.count + 1 := by simp [BitVec.ofNat_add]
  split <;> simp [dsUpdateCore, *]

/-- Settles O24: a completed DS_UPDATE is one update, whose two cases are those of the statement. -/
theorem dsUpdateFeedsOneSample : Obligations.DsUpdateFeedsOneSample := by
  intro s rsv
  refine ⟨fun hrsv => exec_reserved (beq_eq_false_iff_ne.2 hrsv), fun hrsv hcfg => ?_, fun hrsv hcfg => ?_⟩
  · exact exec_badState (beq_iff_eq.2 hrsv) trivial fun h => Bool.false_ne_true (hcfg.symm.trans h)
  · rw [exec_complete (i := .dsUpdate rsv) (beq_iff_eq.2 hrsv) trivial hcfg trivial, okState, dsUpdateCore_eq]
    split <;> rfl

/-- Settles O26: DS_GET with no reserved bit runs exactly when the decimator is configured. -/
theorem dsGetReadsTheSampleOnce : Obligations.DsGetReadsTheSampleOnce := by
  intro s rsv
  split
  case isTrue hrsv => exact exec_reserved (beq_eq_false_iff_ne.2 hrsv)
  case isFalse hrsv =>
    have hw : Instr.wellFormed (.dsGet rsv) = true := beq_iff_eq.2 (not_not.1 hrsv)
    split
    case isTrue hcfg => exact exec_badState hw trivial fun h => Bool.false_ne_true (hcfg.symm.trans h)
    case isFalse hcfg => exact exec_complete hw trivial (Bool.eq_true_of_not_eq_false hcfg) trivial

/-! ### Sequences of inputs (40_filter_downsampler R85, R86) -/

/-- A DS_CONFIG that ended OK had a legal ratio and constructed the decimator (40_filter_downsampler R82). -/
theorem dsConfig_ok {r : Byte} {s u : State} (h : exec (.dsConfig 0 r) s = .next u) (hok : u.lastStatus = .ok) :
    ratioLegal r = true ∧ u = okState (.dsConfig 0 r) s := by
  rcases exec_next h with ⟨rfl, -⟩ | ⟨rfl, -⟩ | ⟨rfl, -, hr, -⟩
  · cases hok
  · cases hok
  · exact ⟨hr, rfl⟩

/-- Feeding a configured decimator is one update with the input in ARG (40_filter_downsampler R83). -/
theorem feed_eq {s : State} (h : s.dsCfg = true) (x : Word) :
    feed s x = (dsUpdateCore x { s with arg := x }).completeWith (filterStep x s).2 := by
  have hexec : exec (.dsUpdate 0) { s with arg := x } = .next (okState (.dsUpdate 0) { s with arg := x }) :=
    exec_complete rfl trivial h trivial
  rw [feed, after, hexec]
  rfl

/-- A sample read of a configured decimator (40_filter_downsampler R84). -/
theorem after_dsGet {s : State} (h : s.dsCfg = true) : after (.dsGet 0) s = (dsGetCore s).completeWith s.sample := by
  have hexec : exec (.dsGet 0) s = .next (okState (.dsGet 0) s) := exec_complete rfl trivial h trivial
  rw [after, hexec]
  rfl

/-- `s` is a decimator configured with ratio `r` that has taken `n` inputs since (40_filter_downsampler R86). -/
structure CountsInputs (r : Byte) (n : Nat) (s : State) : Prop where
  legal : ratioLegal r = true
  configured : s.dsCfg = true
  ratio : s.ratio = r
  count : s.count.toNat = n % r.toNat

/-- A legal ratio is not 0. -/
theorem ratioLegal_pos {r : Byte} (h : ratioLegal r = true) : 0 < r.toNat := by
  have := ratioLegal_iff.1 h
  omega

/-- DS_CONFIG begins at no input. -/
theorem dsConfig_countsInputs {r : Byte} {s u : State} (h : exec (.dsConfig 0 r) s = .next u) (hok : u.lastStatus = .ok) :
    CountsInputs r 0 u ∧ u.ready = false := by
  obtain ⟨hr, rfl⟩ := dsConfig_ok h hok
  exact ⟨⟨hr, rfl, rfl, (Nat.zero_mod _).symm⟩, rfl⟩

/-- The next count in a cycle of `r` is `r` exactly when the cycle completes. -/
theorem mod_add_one_eq_iff {n r : Nat} (h : 0 < r) : n % r + 1 = r ↔ (n + 1) % r = 0 := by
  have hlt := Nat.mod_lt n h
  rw [← Nat.mod_add_mod]
  rcases Nat.lt_or_eq_of_le (show n % r + 1 ≤ r from hlt) with hnext | hfull
  · rw [Nat.mod_eq_of_lt hnext]
    omega
  · rw [hfull, Nat.mod_self]
    exact iff_of_true rfl rfl

/-- At least one cycle is complete after one more input when one was, or when this input completes one. -/
theorem le_or_add_one_mod_iff {n r : Nat} : r ≤ n ∨ (n + 1) % r = 0 ↔ r ≤ n + 1 := by
  constructor
  · rintro (h | h)
    · exact Nat.le_succ_of_le h
    · exact Nat.le_of_dvd n.succ_pos (Nat.dvd_of_mod_eq_zero h)
  · intro h
    rcases Nat.lt_or_eq_of_le h with hlt | rfl
    · exact .inl (Nat.le_of_lt_succ hlt)
    · exact .inr (Nat.mod_self _)

/-- One more input is counted, and raises READY exactly when it completes a cycle (40_filter_downsampler R80). -/
theorem feed_countsInputs {r : Byte} {n : Nat} {s : State} (h : CountsInputs r n s) (x : Word) :
    CountsInputs r (n + 1) (feed s x) ∧ (feed s x).ready = (s.ready || decide ((n + 1) % r.toNat = 0)) := by
  obtain ⟨hlegal, hcfg, hratio, hcount⟩ := h
  have hpos := ratioLegal_pos hlegal
  have hlt : s.count.toNat < s.ratio.toNat := by
    rw [hcount, hratio]
    exact Nat.mod_lt _ hpos
  have hnext : (dsUpdateCore x { s with arg := x }).count.toNat = (s.count.toNat + 1) % s.ratio.toNat :=
    dsUpdateCore_count_toNat hlt
  rw [feed_eq hcfg]
  refine ⟨⟨hlegal, hcfg, hratio, ?_⟩, ?_⟩
  · rw [completeWith_count, hnext, hcount, hratio, Nat.mod_add_mod]
  · show (s.ready || decide (s.count.toNat + 1 = s.ratio.toNat)) = _
    rw [hcount, hratio, decide_eq_decide.2 (mod_add_one_eq_iff hpos)]

/-- A read after the update keeps the count and leaves READY 0 (40_filter_downsampler R86). -/
theorem feedAndRead_countsInputs {r : Byte} {n : Nat} {s : State} (h : CountsInputs r n s) (x : Word) :
    CountsInputs r (n + 1) (feedAndRead s x) ∧ (feedAndRead s x).ready = false := by
  obtain ⟨next, -⟩ := feed_countsInputs h x
  unfold feedAndRead
  split
  case isTrue =>
    obtain ⟨hlegal, hcfg, hratio, hcount⟩ := next
    rw [after_dsGet hcfg]
    exact ⟨⟨hlegal, hcfg, hratio, hcount⟩, rfl⟩
  case isFalse hready => exact ⟨next, Bool.eq_false_of_not_eq_true hready⟩

/-- Without reads, READY is 1 from the first completed cycle on (40_filter_downsampler R86). -/
theorem foldl_feed_counts {r : Byte} {u : State} (h : CountsInputs r 0 u) (hready : u.ready = false) (xs : List Word) :
    CountsInputs r xs.length (xs.foldl feed u) ∧ ((xs.foldl feed u).ready = true ↔ r.toNat ≤ xs.length) := by
  have hpos := ratioLegal_pos h.legal
  induction xs using List.reverseRecOn with
  | nil => exact ⟨h, iff_of_false (fun hr => Bool.false_ne_true (hready.symm.trans hr)) hpos.not_ge⟩
  | append_singleton xs x ih =>
    obtain ⟨hcounts, hiff⟩ := ih
    obtain ⟨next, hnext⟩ := feed_countsInputs hcounts x
    rw [List.foldl_concat, List.length_append, List.length_singleton]
    refine ⟨next, ?_⟩
    rw [hnext, Bool.or_eq_true, hiff, decide_eq_true_eq, le_or_add_one_mod_iff]

/-- With a read after every update that leaves READY 1, READY is 0 before every update (40_filter_downsampler R86). -/
theorem foldl_feedAndRead_counts {r : Byte} {u : State} (h : CountsInputs r 0 u) (hready : u.ready = false)
    (xs : List Word) :
    CountsInputs r xs.length (xs.foldl feedAndRead u) ∧ (xs.foldl feedAndRead u).ready = false := by
  induction xs using List.reverseRecOn with
  | nil => exact ⟨h, hready⟩
  | append_singleton xs x ih =>
    rw [List.foldl_concat, List.length_append, List.length_singleton]
    exact feedAndRead_countsInputs ih.1 x

/-- Settles O56: every input is counted, with or without reads, and the next update raises READY when it completes a cycle. -/
theorem decimatorCadence : Obligations.DecimatorCadence := by
  intro s u r xs x h hok
  obtain ⟨hcounts, hready⟩ := dsConfig_countsInputs h hok
  obtain ⟨unread, hunread⟩ := foldl_feed_counts hcounts hready xs
  obtain ⟨read, hread⟩ := foldl_feedAndRead_counts hcounts hready xs
  refine ⟨unread.count, hunread, ?_⟩
  rw [(feed_countsInputs read x).2, hread, Bool.false_or, decide_eq_true_eq]

/-- Two configured decimators whose filters are in the same state: the coefficients in use and the delay registers agree
(40_filter_downsampler R85). -/
structure SameFilter (s t : State) : Prop where
  configured : s.dsCfg = true ∧ t.dsCfg = true
  coef : s.coef = t.coef
  delay : s.delay = t.delay

/-- Two filters in the same state do the same with an input (40_filter_downsampler R78). -/
theorem filterStep_eq_of_sameFilter {s t : State} (h : SameFilter s t) (x : Word) : filterStep x s = filterStep x t := by
  rw [filterStep, filterStep, h.coef, h.delay]

/-- One input leaves the same RESULT and keeps the filters in the same state. -/
theorem feed_sameFilter {s t : State} (h : SameFilter s t) (x : Word) :
    (feed s x).result = (feed t x).result ∧ SameFilter (feed s x) (feed t x) := by
  obtain ⟨hs, ht⟩ := h.configured
  rw [feed_eq hs, feed_eq ht]
  have hstep := filterStep_eq_of_sameFilter h x
  exact ⟨congrArg Prod.snd hstep, ⟨hs, ht⟩, h.coef, congrArg Prod.fst hstep⟩

/-- So does any sequence of inputs. -/
theorem feedResults_eq_of_sameFilter {s t : State} (h : SameFilter s t) (xs : List Word) :
    feedResults s xs = feedResults t xs := by
  induction xs generalizing s t with
  | nil => rfl
  | cons x xs ih =>
    obtain ⟨hresult, hnext⟩ := feed_sameFilter h x
    rw [feedResults, feedResults, hresult, ih hnext]

/-- Settles O57: DS_CONFIG with one legal ratio leaves filters in the same state. -/
theorem filterOutputIsDeterminedByItsInputs : Obligations.FilterOutputIsDeterminedByItsInputs := by
  intro s s' u u' r xs h hok h' hcoef
  obtain ⟨hr, rfl⟩ := dsConfig_ok h hok
  obtain rfl := Host.Outcome.next.inj (h'.symm.trans (exec_complete rfl hr trivial trivial))
  have same : SameFilter (okState (.dsConfig 0 r) s) (okState (.dsConfig 0 r) s') := ⟨⟨rfl, rfl⟩, hcoef, rfl⟩
  exact feedResults_eq_of_sameFilter same xs

end Sys2Proof.Machine

/-! ## Binary32 arithmetic (40_filter_downsampler R75, R76, R77) -/

namespace Sys2Proof.Machine

open Sys2Proof Sys2Proof.Statements

/-! ### Values and infinities (R75) -/

/-- The absolute value of a finite binary32 is its magnitude. -/
theorem f32Int_natAbs (x : Word) : (f32Int x).natAbs = f32Units x := by
  unfold f32Int
  split
  · rw [Int.natAbs_neg, Int.natAbs_natCast]
  · exact Int.natAbs_natCast _

/-- A value is 0 exactly when its magnitude is. -/
theorem f32Int_eq_zero_iff {x : Word} : f32Int x = 0 ↔ f32Units x = 0 := by
  rw [← Int.natAbs_eq_zero, f32Int_natAbs]

/-- A value that is not 0 is negative exactly when its sign bit is 1. -/
theorem f32Int_neg_iff {x : Word} (h : f32Int x ≠ 0) : f32Int x < 0 ↔ f32Sign x = true := by
  unfold f32Int at *
  cases hs : f32Sign x <;> simp only [hs, if_true, if_false, Bool.false_eq_true, iff_true, iff_false] at * <;> omega

/-- Values of one magnitude are the same when they have the same sign or are 0. -/
theorem f32Int_congr {x y : Word} (hu : f32Units x = f32Units y) (hs : f32Sign x = f32Sign y ∨ f32Units x = 0) :
    f32Int x = f32Int y := by
  rcases hs with hs | hz
  · rw [f32Int, f32Int, hs, hu]
  · rw [f32Int_eq_zero_iff.2 hz, f32Int_eq_zero_iff.2 (hu.symm.trans hz)]

/-- An infinity is no NaN. -/
theorem f32IsNaN_of_isInf {x : Word} (h : f32IsInf x = true) : f32IsNaN x = false := by
  obtain ⟨-, hf⟩ := (f32IsInf_iff x).1 h
  simp [f32IsNaN, hf]

/-- An infinity is the infinity of its sign. -/
theorem eq_infinity_of_isInf {x : Word} (h : f32IsInf x = true) : x = infinity (f32Sign x) := by
  obtain ⟨he, hf⟩ := (f32IsInf_iff x).1 h
  apply BitVec.eq_of_toNat_eq
  rw [f32_toNat, he, hf]
  cases f32Sign x <;> rfl

/-- The bits of an infinity do not read as a zero. -/
theorem f32Int_ne_zero_of_isInf {x : Word} (h : f32IsInf x = true) : f32Int x ≠ 0 := by
  obtain ⟨he, hf⟩ := (f32IsInf_iff x).1 h
  rw [Ne, f32Int_eq_zero_iff, f32Units, he, hf, if_neg (by decide)]
  positivity

/-- The infinity the model returns is the one of the rule. -/
theorem f32Inf_eq_infinity (b : Bool) : f32Inf b = infinity b := by
  cases b <;> rfl

@[simp] theorem f32IsNaN_infinity (b : Bool) : f32IsNaN (infinity b) = false := by
  cases b <;> decide

@[simp] theorem f32IsNaN_signBit (b : Bool) : f32IsNaN (f32SignBit b) = false := by
  cases b <;> decide

@[simp] theorem f32Sign_inf (b : Bool) : f32Sign (f32Inf b) = b := by
  cases b <;> decide

/-- What is no NaN is an infinity or finite. -/
theorem isInf_or_finite {x : Word} (h : f32IsNaN x = false) : f32IsInf x = true ∨ finite x := by
  cases hinf : f32IsInf x
  · exact .inr ⟨h, hinf⟩
  · exact .inl rfl

/-- The negation of a finite number is finite. -/
theorem finite_neg {x : Word} (h : finite x) : finite (f32Neg x) := by
  obtain ⟨hinf, hnan⟩ := f32Neg_class x
  exact ⟨hnan.trans h.1, hinf.trans h.2⟩

/-! ### One rounding is correct rounding (R76) -/

/-- A value in a finer unit, by its sign and its magnitude there. -/
theorem f32Int_mul_pow (y : Word) (k : Nat) :
    f32Int y * 2 ^ k = if f32Sign y = true then -((f32Units y * 2 ^ k : Nat) : Int) else ((f32Units y * 2 ^ k : Nat) : Int) := by
  unfold f32Int
  split <;> push_cast
  · exact Int.neg_mul _ _
  · rfl

/-- The distance of a value of the same sign is the distance of the magnitudes. -/
theorem distance_of_sign {exact : Int} {k : Nat} {y : Word} (h : f32Sign y = decide (exact < 0)) :
    (exact - f32Int y * 2 ^ k).natAbs = ((exact.natAbs : Int) - (f32Units y * 2 ^ k : Nat)).natAbs := by
  simp only [f32Int_mul_pow, h, decide_eq_true_eq]
  split <;> omega

/-- The distance of a value of the other sign is the sum of the magnitudes. -/
theorem distance_of_other_sign {exact : Int} {k : Nat} {y : Word} (h : f32Sign y ≠ decide (exact < 0)) :
    (exact - f32Int y * 2 ^ k).natAbs = exact.natAbs + f32Units y * 2 ^ k := by
  simp only [f32Int_mul_pow, Bool.eq_not_of_ne h, Bool.not_eq_true', decide_eq_false_iff_not]
  split <;> omega

/-- The distance of any finite value is at least the distance of the magnitudes, and more unless the value has the same sign or
is 0. -/
theorem magnitude_distance_le {exact : Int} (h : exact ≠ 0) (k : Nat) (y : Word) :
    ((exact.natAbs : Int) - (f32Units y * 2 ^ k : Nat)).natAbs ≤ (exact - f32Int y * 2 ^ k).natAbs ∧
    (((exact.natAbs : Int) - (f32Units y * 2 ^ k : Nat)).natAbs = (exact - f32Int y * 2 ^ k).natAbs →
      f32Sign y = decide (exact < 0) ∨ f32Units y = 0) := by
  by_cases hs : f32Sign y = decide (exact < 0)
  · exact ⟨(distance_of_sign hs).ge, fun _ => .inl hs⟩
  · rw [distance_of_other_sign hs]
    have hpos := Int.natAbs_pos.2 h
    refine ⟨by omega, fun heq => .inr ?_⟩
    have hzero : f32Units y * 2 ^ k = 0 := by omega
    exact (Nat.mul_eq_zero.1 hzero).resolve_right (by positivity)

/-- Rounding an exact value that is not 0 is correct rounding: among magnitudes by `roundPack_nearest`, and a value of the other
sign is no nearer. -/
theorem roundPack_correctlyRounded {exact : Int} (h : exact ≠ 0) (k : Nat) :
    correctlyRounded exact k (roundPack (decide (exact < 0)) exact.natAbs k) := by
  have hm := Int.natAbs_pos.2 h
  by_cases hover : (2 ^ 25 - 1) * 2 ^ 252 * 2 ^ k ≤ exact.natAbs
  · rw [roundPack_inf _ _ _ hm hover, correctlyRounded, if_pos hover]
    exact ⟨f32Sign_inf _, rfl⟩
  rw [correctlyRounded, if_neg hover]
  obtain ⟨hsign, hexp, hunits, hparity⟩ := roundPack_fields (decide (exact < 0)) _ _ hm hover
  generalize roundPack (decide (exact < 0)) exact.natAbs k = r at *
  refine ⟨hsign, (f32_finite_iff r).2 hexp, fun y _ => ?_⟩
  obtain ⟨nearest, tie⟩ := roundPack_nearest _ k hm y
  obtain ⟨hle, hside⟩ := magnitude_distance_le h k y
  rw [← hunits] at nearest tie
  rw [distance_of_sign hsign]
  refine ⟨nearest.trans hle, fun heq hne => ?_⟩
  have hmag := le_antisymm nearest (hle.trans heq.ge)
  have heven := tie hmag fun hu => hne <|
    f32Int_congr (Nat.eq_of_mul_eq_mul_right (by positivity) hu) ((hside (hmag.symm.trans heq)).imp_left (·.trans hsign.symm))
  rw [BitVec.getLsbD, Nat.testBit_zero, hparity, heven]
  rfl

/-! ### Sums and differences -/

/-- A sum of finite operands that is not 0 is correctly rounded (R76). -/
theorem add32_correctlyRounded {a b : Word} (ha : finite a) (hb : finite b) (h : f32Int a + f32Int b ≠ 0) :
    correctlyRounded (f32Int a + f32Int b) 0 (add32 a b) := by
  rw [add32_finite ha hb, if_neg h]
  exact roundPack_correctlyRounded h 0

/-- An exact zero sum is -0.0 only for two negative zeros (R76). -/
theorem add32_zero {a b : Word} (ha : finite a) (hb : finite b) (h : f32Int a + f32Int b = 0) :
    add32 a b = if f32Sign a = true ∧ f32Sign b = true then 0x80000000#32 else 0#32 := by
  rw [add32_finite ha hb, if_pos h, f32SignBit]
  simp only [Bool.and_eq_true]

/-- An infinite first operand with no infinity of the other sign gives itself (log 19). -/
theorem add32_infinite_left {a b : Word} (ha : f32IsInf a = true) (hb : f32IsNaN b = false)
    (h : f32IsInf b = true → f32Sign b = f32Sign a) : add32 a b = infinity (f32Sign a) := by
  have hvalid : ¬ (f32IsInf b && (f32Sign a != f32Sign b)) = true := by
    rw [Bool.and_eq_true, bne_iff_ne]
    exact fun ⟨hinf, hne⟩ => hne (h hinf).symm
  rw [add32, f32IsNaN_of_isInf ha, hb, Bool.or_false, if_neg Bool.false_ne_true, if_pos ha, if_neg hvalid]
  exact eq_infinity_of_isInf ha

/-- A finite first operand and an infinite second one give the second (log 19). -/
theorem add32_infinite_right {a b : Word} (ha : finite a) (hb : f32IsInf b = true) : add32 a b = infinity (f32Sign b) := by
  rw [add32, ha.1, f32IsNaN_of_isInf hb, Bool.or_false, if_neg Bool.false_ne_true, ha.2, if_neg Bool.false_ne_true, if_pos hb]
  exact eq_infinity_of_isInf hb

/-- Settles O49: a difference is the sum with the negated subtrahend. -/
theorem sumsAreCorrectlyRounded : Obligations.SumsAreCorrectlyRounded := by
  refine ⟨fun a b ha hb => ?_, fun a b ha hb => ?_, fun a b ha hb => ?_⟩
  all_goals
    obtain ⟨hsign, -, -⟩ := f32Neg_fields b
    obtain ⟨hinf, hnan⟩ := f32Neg_class b
  · have difference := add32_correctlyRounded ha (finite_neg hb)
    have zero := add32_zero ha (finite_neg hb)
    rw [f32Neg_int, ← Int.sub_eq_add_neg] at difference zero
    simp only [hsign, Bool.not_eq_true'] at zero
    exact ⟨add32_correctlyRounded ha hb, add32_zero ha hb, difference, zero⟩
  · refine ⟨add32_infinite_left ha hb, fun h => add32_infinite_left ha (hnan.trans hb) fun hb' => ?_⟩
    rw [hsign]
    exact (Bool.eq_not_of_ne (h (hinf.symm.trans hb')).symm).symm
  · refine ⟨add32_infinite_right ha hb, ?_⟩
    rw [← hsign]
    exact add32_infinite_right ha (hinf.trans hb)

/-! ### Products -/

/-- The sign of a product that is not 0 is the exclusive-or of the signs. -/
theorem f32Int_mul_sign {a b : Word} (h : f32Int a * f32Int b ≠ 0) :
    decide (f32Int a * f32Int b < 0) = (f32Sign a != f32Sign b) := by
  obtain ⟨ha, hb⟩ := mul_ne_zero_iff.1 h
  have hna := f32Int_neg_iff ha
  have hnb := f32Int_neg_iff hb
  have hpa : 0 < f32Int a ↔ ¬ f32Sign a = true := by rw [← hna]; omega
  have hpb : 0 < f32Int b ↔ ¬ f32Sign b = true := by rw [← hnb]; omega
  rw [Bool.eq_iff_iff, decide_eq_true_eq, mul_neg_iff, hna, hnb, hpa, hpb]
  cases f32Sign a <;> cases f32Sign b <;> decide

/-- A product of finite operands that is not 0 is correctly rounded (R76). -/
theorem mul32_correctlyRounded {a b : Word} (ha : finite a) (hb : finite b) (h : f32Int a * f32Int b ≠ 0) :
    correctlyRounded (f32Int a * f32Int b) 149 (mul32 a b) := by
  rw [mul32_finite ha hb, ← f32Int_mul_sign h, ← f32Int_natAbs, ← f32Int_natAbs, ← Int.natAbs_mul]
  exact roundPack_correctlyRounded h 149

/-- Rounding 0 gives the zero of the sign. -/
theorem roundPack_zero (b : Bool) (u : Nat) : roundPack b 0 u = f32SignBit b := by
  have hshift : roundShift 0 u = u := by simp [roundShift]
  have hround : roundNearestEven 0 u = 0 := by simpa using roundNearestEven_exact 0 u
  simp [roundPack, hshift, hround]

/-- An exact zero product takes the exclusive-or of the signs (R76). -/
theorem mul32_zero {a b : Word} (ha : finite a) (hb : finite b) (h : f32Int a * f32Int b = 0) :
    mul32 a b = if f32Sign a = f32Sign b then 0#32 else 0x80000000#32 := by
  have hunits : f32Units a * f32Units b = 0 := by
    rw [← f32Int_natAbs, ← f32Int_natAbs, ← Int.natAbs_mul, h, Int.natAbs_zero]
  rw [mul32_finite ha hb, hunits, roundPack_zero, f32SignBit]
  cases f32Sign a <;> cases f32Sign b <;> rfl

/-- An infinity times what is no zero and no NaN is the infinity of the exclusive-or of the signs (log 19). -/
theorem mul32_infinite {a b : Word} (ha : f32IsNaN a = false) (hb : f32IsNaN b = false)
    (hinf : f32IsInf a = true ∨ f32IsInf b = true) (hza : f32Int a ≠ 0) (hzb : f32Int b ≠ 0) :
    mul32 a b = infinity (f32Sign a != f32Sign b) := by
  rw [Ne, f32Int_eq_zero_iff] at hza hzb
  rw [← f32Inf_eq_infinity]
  simp [mul32, ha, hb, hinf, hza, hzb]

/-- Settles O50, clause by clause. -/
theorem productsAreCorrectlyRounded : Obligations.ProductsAreCorrectlyRounded := by
  refine ⟨fun a b ha hb => ⟨mul32_correctlyRounded ha hb, mul32_zero ha hb⟩, fun a b ha hb hinf hza hzb => ?_⟩
  rw [mul32_infinite ha hb hinf hza hzb]
  congr 1
  cases f32Sign a <;> cases f32Sign b <;> rfl

/-! ### NaN results (R77) -/

/-- The NaN cases of a sum (R77). -/
def SumInvalid (a b : Word) : Prop :=
  f32IsNaN a = true ∨ f32IsNaN b = true ∨ (f32IsInf a = true ∧ f32IsInf b = true ∧ f32Sign a ≠ f32Sign b)

/-- The NaN cases of a product (R77). -/
def ProductInvalid (a b : Word) : Prop :=
  f32IsNaN a = true ∨ f32IsNaN b = true ∨ (f32IsInf a = true ∧ finite b ∧ f32Int b = 0) ∨
    (f32IsInf b = true ∧ finite a ∧ f32Int a = 0)

/-- An invalid sum is QNAN. -/
theorem add32_invalid {a b : Word} (h : SumInvalid a b) : add32 a b = Config.qnan := by
  rcases h with h | h | ⟨ha, hb, hs⟩
  · simp [add32, h]
  · simp [add32, h]
  · simp [add32, ha, hb, hs]

/-- A sum that is not invalid is no NaN. -/
theorem add32_notNaN {a b : Word} (h : ¬ SumInvalid a b) : f32IsNaN (add32 a b) = false := by
  simp only [SumInvalid, not_or, Bool.not_eq_true] at h
  obtain ⟨hna, hnb, hopposite⟩ := h
  rcases isInf_or_finite hna with ha | ha
  · rw [add32_infinite_left ha hnb fun hb => ?_]
    · exact f32IsNaN_infinity _
    · exact (not_not.1 fun hs => hopposite ⟨ha, hb, hs⟩).symm
  rcases isInf_or_finite hnb with hb | hb
  · rw [add32_infinite_right ha hb]
    exact f32IsNaN_infinity _
  · rw [add32_finite ha hb]
    split
    · exact f32IsNaN_signBit _
    · exact roundPack_notNaN _ _ _

/-- An invalid product is QNAN. -/
theorem mul32_invalid {a b : Word} (h : ProductInvalid a b) : mul32 a b = Config.qnan := by
  rcases h with h | h | ⟨ha, hb, hz⟩ | ⟨hb, ha, hz⟩
  · simp [mul32, h]
  · simp [mul32, h]
  · simp [mul32, ha, hb, f32Int_eq_zero_iff.1 hz]
  · simp [mul32, ha, hb, f32Int_eq_zero_iff.1 hz]

/-- A product that is not invalid is no NaN. -/
theorem mul32_notNaN {a b : Word} (h : ¬ ProductInvalid a b) : f32IsNaN (mul32 a b) = false := by
  simp only [ProductInvalid, not_or, Bool.not_eq_true] at h
  obtain ⟨hna, hnb, hza, hzb⟩ := h
  have infinite (hinf : f32IsInf a = true ∨ f32IsInf b = true) (hia : f32Int a ≠ 0) (hib : f32Int b ≠ 0) :
      f32IsNaN (mul32 a b) = false := by
    rw [mul32_infinite hna hnb hinf hia hib]
    exact f32IsNaN_infinity _
  rcases isInf_or_finite hna with ha | ha <;> rcases isInf_or_finite hnb with hb | hb
  · exact infinite (.inl ha) (f32Int_ne_zero_of_isInf ha) (f32Int_ne_zero_of_isInf hb)
  · exact infinite (.inl ha) (f32Int_ne_zero_of_isInf ha) fun hz => hza ⟨ha, hb, hz⟩
  · exact infinite (.inr hb) (fun hz => hzb ⟨hb, ha, hz⟩) (f32Int_ne_zero_of_isInf hb)
  · rw [mul32_finite ha hb]
    exact roundPack_notNaN _ _ _

/-- A result that is QNAN in the invalid cases and no NaN in the others is QNAN exactly in the invalid cases. -/
theorem eq_qnan_iff {r : Word} {invalid : Prop} (h : invalid → r = Config.qnan) (h' : ¬ invalid → f32IsNaN r = false) :
    r = 0x7FC00000#32 ↔ invalid := by
  refine ⟨fun hr => not_not.1 fun hvalid => ?_, h⟩
  have hnan := h' hvalid
  rw [hr] at hnan
  exact absurd hnan (by decide)

/-- Such a result is QNAN when it is a NaN. -/
theorem eq_qnan_of_isNaN {r : Word} {invalid : Prop} (h : invalid → r = Config.qnan) (h' : ¬ invalid → f32IsNaN r = false)
    (hr : f32IsNaN r = true) : r = 0x7FC00000#32 :=
  h (not_not.1 fun hvalid => Bool.false_ne_true ((h' hvalid).symm.trans hr))

/-- The NaN cases of a difference: infinities of one sign (R77). -/
theorem sumInvalid_neg {a b : Word} : SumInvalid a (f32Neg b) ↔
    (f32IsNaN a = true ∨ f32IsNaN b = true ∨ (f32IsInf a = true ∧ f32IsInf b = true ∧ f32Sign a = f32Sign b)) := by
  obtain ⟨hsign, -, -⟩ := f32Neg_fields b
  obtain ⟨hinf, hnan⟩ := f32Neg_class b
  rw [SumInvalid, hsign, hinf, hnan, ne_eq, Bool.eq_not, not_not]

/-- Settles O51: the invalid cases of a sum, of a difference and of a product. -/
theorem nanResultsAreQnan : Obligations.NanResultsAreQnan := by
  intro a b
  refine ⟨eq_qnan_iff add32_invalid add32_notNaN, (eq_qnan_iff add32_invalid add32_notNaN).trans sumInvalid_neg,
    eq_qnan_iff mul32_invalid mul32_notNaN, ?_⟩
  rintro r (rfl | rfl | rfl)
  · exact eq_qnan_of_isNaN add32_invalid add32_notNaN
  · exact eq_qnan_of_isNaN (r := sub32 a b) add32_invalid add32_notNaN
  · exact eq_qnan_of_isNaN mul32_invalid mul32_notNaN

end Sys2Proof.Machine

/-! ## The capture unit (41_capture R100 to R108) -/

namespace Sys2Proof.Machine

open Sys2Proof Sys2Proof.Statements

/-! ### The engine tick (41_capture R103, R105, R106, R107) -/

/-- A tick as R105 writes it: WIDX two on or back to 0, a flag set at half and one at the end, and each half's validity. -/
theorem tick_eq (a b : Code) (s : State) : tick a b s =
    { s with
      capMem := storePair s.capMem s.widx.toNat a b,
      widx := if s.widx.toNat + 2 = s.len.toNat then 0 else s.widx + 2,
      ht := if s.widx.toNat + 2 = s.len.toNat / 2 then true else s.ht,
      tc := if s.widx.toNat + 2 = s.len.toNat then true else s.tc,
      halfValid0 := if s.widx.toNat + 2 = s.len.toNat / 2 then true
                    else if s.widx.toNat < s.len.toNat / 2 then false else s.halfValid0,
      halfValid1 := if s.widx.toNat + 2 = s.len.toNat then true
                    else if s.widx.toNat < s.len.toNat / 2 then s.halfValid1 else false } := by
  have hwidx : BitVec.ofNat 32 (s.widx.toNat + 2) = s.widx + 2 := by simp [BitVec.ofNat_add]
  simp [tick, hwidx, Bool.or_comm, Bool.and_comm]

/-- The pair a tick stores is its two codes, zero-extended (41_capture R105). -/
theorem tick_pair (a b : Code) (s : State) :
    (tick a b s).capCell s.widx.toNat = some (BitVec.ofNat 16 a.toNat) ∧
      (tick a b s).capCell (s.widx.toNat + 1) = some (BitVec.ofNat 16 b.toNat) := by
  simp [tick_capCell]

/-- A step with a tick scheduled is that tick while RUN = 1 (41_capture R105). -/
theorem step_tick_running {s : State} {a b : Code} {rest : List Event} (h : s.schedule = .tick a b :: rest)
    (hrun : s.run = true) : step s = .next (tick a b { s with schedule := rest }) :=
  (step_event h).trans (congrArg Host.Outcome.next (if_pos hrun))

/-- A step with a tick scheduled passes over it while RUN = 0 (41_capture R103). -/
theorem step_tick_stopped {s : State} {a b : Code} {rest : List Event} (h : s.schedule = .tick a b :: rest)
    (hrun : s.run = false) : step s = .next { s with schedule := rest } :=
  (step_event h).trans (congrArg Host.Outcome.next (if_neg (Bool.eq_false_iff.1 hrun)))

/-- A step with no event scheduled is the engine's own (41_capture R107). -/
theorem step_unscheduled {s : State} (h : s.schedule = []) : step s = .next (idle s) := by
  rw [step, h]

/-- Settles O41: the step is the tick, by its cells, its equation and the bytes its store leaves. -/
theorem tickWritesOnePair : Obligations.TickWritesOnePair := by
  intro s a b rest _ hrun hsched
  obtain ⟨hfirst, hsecond⟩ := tick_pair a b { s with schedule := rest }
  exact ⟨_, step_tick_running hsched hrun, hfirst, hsecond, fun _ hx => storePair_read_outside s.capMem a b hx,
    tick_eq a b { s with schedule := rest }⟩

/-- Settles O42: a tick passed over, an idle block, and the engine's own tick, whose codes are two draws. -/
theorem engineTicksExactlyWhileRunning : Obligations.EngineTicksExactlyWhileRunning := by
  refine fun s => ⟨fun hrun _ _ _ => step_tick_stopped rfl hrun, fun hrun hsched => ?_, fun hrun hsched => ?_⟩
  · rw [step_unscheduled hsched, idle, if_neg (Bool.eq_false_iff.1 hrun)]
  · refine ⟨Config.freeCode s.channel s.draws, Config.freeCode s.channel (s.draws + 1), ?_⟩
    rw [step_unscheduled hsched, idle, if_pos hrun, hsched]
    exact Eq.symm (step_tick_running rfl hrun)

/-! ### The number of a tick (41_capture R108) -/

/-- A command that ended OK had its effect (60_exceptions R159). -/
theorem exec_ok {i : Instr} {s t : State} (h : exec i s = .next t) (hok : t.lastStatus = .ok) :
    t = okState i s ∧ OperandsLegal i s ∧ StateReady i s := by
  rcases exec_next h with ⟨rfl, -⟩ | ⟨rfl, -⟩ | ⟨rfl, -, ho, hr, -⟩
  · cases hok
  · cases hok
  · exact ⟨rfl, ho, hr⟩

/-- `s` is a capture unit of legal length `len` whose WIDX stands where `n` ticks from cell 0 leave it (41_capture R108). -/
structure CountsTicks (len : Word) (n : Nat) (s : State) : Prop where
  legal : lengthLegal len = true
  length : s.len = len
  widx : s.widx.toNat = 2 * n % len.toNat

/-- A CAP_START that ended OK begins at no tick (41_capture R101). -/
theorem capStart_countsTicks {s u : State} (hs : s.Inv) (h : exec (.capStart 0) s = .next u) (hok : u.lastStatus = .ok) :
    CountsTicks s.len 0 u := by
  obtain ⟨rfl, -, hcfg, -⟩ := exec_ok h hok
  obtain ⟨-, ⟨configured, -, -⟩, -⟩ := hs
  exact ⟨(configured hcfg).1, rfl, (Nat.zero_mod _).symm⟩

/-- A pass through the buffer is LEN/2 ticks, and WIDX is twice the number of ticks in the current pass. -/
theorem CountsTicks.widx_eq_two_mul {len : Word} {n : Nat} {s : State} (h : CountsTicks len n s) :
    s.widx.toNat = 2 * (n % (len.toNat / 2)) := by
  have hlen := lengthLegal_iff.1 h.legal
  rw [h.widx, ← Nat.mul_mod_mul_left, Nat.mul_div_cancel' (by omega)]

/-- One more tick is counted (41_capture R105). -/
theorem tick_countsTicks {len : Word} {n : Nat} {s : State} (h : CountsTicks len n s) (a b : Code) :
    CountsTicks len (n + 1) (tick a b s) := by
  have hcell := h.widx_eq_two_mul
  obtain ⟨hlegal, rfl, hwidx⟩ := h
  have hlen := lengthLegal_iff.1 hlegal
  have hlt := Nat.mod_lt n (show 0 < s.len.toNat / 2 by omega)
  refine ⟨hlegal, rfl, ?_⟩
  rw [tick_widx_toNat a b hlegal (by omega) (by omega), hwidx, Nat.mod_add_mod, Nat.mul_add_one]

/-- Every tick of a sequence is counted. -/
theorem ticks_countsTicks {len : Word} {n : Nat} {s : State} (h : CountsTicks len n s) (draws : List (Code × Code)) :
    CountsTicks len (n + draws.length) (ticks draws s) := by
  induction draws generalizing n s with
  | nil => exact h
  | cons d draws ih =>
    rw [List.length_cons, Nat.add_comm draws.length, ← Nat.add_assoc]
    exact ih (tick_countsTicks h d.1 d.2)

/-- The next count in a cycle of `m` is `k`, below `m` and not 0, exactly when the count after one more is. -/
theorem mod_add_one_eq_iff_of_lt {n m k : Nat} (hk : 0 < k) (hm : k < m) : n % m + 1 = k ↔ (n + 1) % m = k := by
  rw [← Nat.mod_add_mod]
  have hlt := Nat.mod_lt n (hk.trans hm)
  rcases Nat.lt_or_eq_of_le (show n % m + 1 ≤ m from hlt) with hnext | hfull
  · rw [Nat.mod_eq_of_lt hnext]
  · rw [hfull, Nat.mod_self]
    omega

/-- The tick after `n` sets HT at half the buffer and TC at its end (41_capture R108). -/
theorem tick_flags_countsTicks {len : Word} {n : Nat} {s : State} (h : CountsTicks len n s) (a b : Code) :
    (tick a b s).ht = (s.ht || decide ((n + 1) % (len.toNat / 2) = len.toNat / 4)) ∧
      (tick a b s).tc = (s.tc || decide ((n + 1) % (len.toNat / 2) = 0)) := by
  have hcell := h.widx_eq_two_mul
  obtain ⟨hlegal, rfl, -⟩ := h
  have hlen := lengthLegal_iff.1 hlegal
  have hhalf := mod_add_one_eq_iff_of_lt (n := n) (show 0 < s.len.toNat / 4 by omega)
    (show s.len.toNat / 4 < s.len.toNat / 2 by omega)
  have hfull := mod_add_one_eq_iff (n := n) (show 0 < s.len.toNat / 2 by omega)
  constructor
  · show (s.ht || decide (s.widx.toNat + 2 = s.len.toNat / 2)) = _
    rw [decide_eq_decide.2 (show s.widx.toNat + 2 = s.len.toNat / 2 ↔ _ from Iff.trans (by omega) hhalf)]
  · show (s.tc || decide (s.widx.toNat + 2 = s.len.toNat)) = _
    rw [decide_eq_decide.2 (show s.widx.toNat + 2 = s.len.toNat ↔ _ from Iff.trans (by omega) hfull)]

/-- Settles O43: CAP_START begins the count, every tick is counted, and the count decides the pair and the flags. -/
theorem tickNumberDecidesCellsAndFlags : Obligations.TickNumberDecidesCellsAndFlags := by
  intro s u draws a b hs h hok
  have counts := ticks_countsTicks (capStart_countsTicks hs h hok) draws
  rw [Nat.zero_add] at counts
  obtain ⟨hht, htc⟩ := tick_flags_countsTicks counts a b
  obtain ⟨hfirst, hsecond⟩ := tick_pair a b (ticks draws u)
  rw [counts.widx] at hfirst hsecond
  exact ⟨counts.widx, hfirst, hsecond, hht, htc⟩

/-! ### The four commands (41_capture R100, R101, R102, R104) -/

/-- A reserved bit and an illegal operand value end alike (60_exceptions R158). -/
theorem exec_illegal {i : Instr} {s : State} (h : i.wellFormed = false ∨ ¬ OperandsLegal i s) :
    exec i s = .next (s.raise .badOperand) := by
  cases hw : i.wellFormed
  · exact exec_reserved hw
  · exact exec_badOperand hw (h.resolve_left (Bool.eq_false_iff.not.2 (not_not.2 hw)))

/-- Settles O19: the operands of CAP_CONFIG are illegal, or RUN decides between BAD_STATE and the effect. -/
theorem capConfigConstructsTheCaptureUnit : Obligations.CapConfigConstructsTheCaptureUnit := by
  refine fun s rsv ch => ⟨fun hbad => ?_, fun hrsv hch hmin hmax hmul => ?_⟩
  · refine exec_illegal (hbad.imp beq_eq_false_iff_ne.2 fun hbad ⟨hch, hlen⟩ => ?_)
    rw [channelLegal_iff] at hch
    rw [lengthLegal_iff] at hlen
    omega
  · have hw : Instr.wellFormed (.capConfig rsv ch) = true := beq_iff_eq.2 hrsv
    have ho : OperandsLegal (.capConfig rsv ch) s := ⟨channelLegal_iff.2 hch, lengthLegal_iff.2 ⟨hmin, hmax, hmul⟩⟩
    split
    case isTrue hrun => exact exec_badState hw ho fun h => Bool.false_ne_true (h.symm.trans hrun)
    case isFalse hrun => exact exec_complete hw ho (Bool.eq_false_of_not_eq_true hrun) trivial

/-- Settles O20: the rate of CAP_START is illegal, or CAP_CFG and RUN decide between BAD_STATE and the effect. -/
theorem capStartArmsTheEngine : Obligations.CapStartArmsTheEngine := by
  refine fun s rsv => ⟨fun hbad => ?_, fun hrsv hpos hmax => ?_⟩
  · refine exec_illegal (hbad.imp beq_eq_false_iff_ne.2 fun hbad hrate => ?_)
    have := rateLegal_iff.1 hrate
    omega
  · have hw : Instr.wellFormed (.capStart rsv) = true := beq_iff_eq.2 hrsv
    have ho : OperandsLegal (.capStart rsv) s := rateLegal_iff.2 ⟨hpos, hmax⟩
    have hready : StateReady (.capStart rsv) s ↔ ¬ (s.capCfg = false ∨ s.run = true) := by simp [StateReady]
    split
    case isTrue hbad => exact exec_badState hw ho fun h => hready.1 h hbad
    case isFalse hgood => exact exec_complete hw ho (hready.2 hgood) trivial

/-- Settles O21: CAP_STOP with no reserved bit always completes. -/
theorem capStopOnlyClearsRun : Obligations.CapStopOnlyClearsRun := by
  intro s rsv
  split
  case isTrue hrsv => exact exec_complete (i := .capStop rsv) (beq_iff_eq.2 hrsv) trivial trivial trivial
  case isFalse hrsv => exact exec_reserved (beq_eq_false_iff_ne.2 hrsv)

/-- A mask does not name HT when it is even, nor TC when it is below 2 (30_encoding R62). -/
theorem mask_bit_zero_eq_not_names (mask : BitVec 2) :
    decide (mask.toNat % 2 = 0) = !maskNamesHt mask ∧ decide (mask.toNat < 2) = !maskNamesTc mask := by
  revert mask
  decide

/-- Settles O22: CAP_CLEAR with no reserved bit always completes, and a flag stays unless its mask bit names it. -/
theorem capClearClearsNamedFlagsOnly : Obligations.CapClearClearsNamedFlagsOnly := by
  intro s rsv mask
  split
  case isTrue hrsv =>
    obtain ⟨hht, htc⟩ := mask_bit_zero_eq_not_names mask
    rw [exec_complete (i := .capClear rsv mask) (beq_iff_eq.2 hrsv) trivial trivial trivial, hht, htc]
    simp [okState, State.complete]
  case isFalse hrsv => exact exec_reserved (beq_eq_false_iff_ne.2 hrsv)

end Sys2Proof.Machine

/-! ## The compressor (42_compressor) -/

namespace Sys2Proof.Machine

open Sys2Proof Sys2Proof.Statements

/-! ### The conversion from binary32 (42_compressor R123) -/

/-- `Q16` of a finite value by its sign and magnitude, the truncated product saturated (42_compressor R123). -/
theorem q16_finite_toInt {y : Word} (h : finite y) :
    (q16 y).toInt =
      if f32Sign y then max (-32768) (-((f32Units y * 32767 / 2 ^ 149 : Nat) : Int))
      else min 32767 ((f32Units y * 32767 / 2 ^ 149 : Nat) : Int) := by
  obtain ⟨hnan, hinf⟩ := h
  simp only [q16, Config.qScale, hnan, hinf, Bool.false_eq_true, if_false]
  generalize f32Units y * 32767 / 2 ^ 149 = t
  split <;> exact BitVec.toInt_ofInt_eq_self (by decide) (by dsimp; omega) (by dsimp; omega)

/-- Truncation toward zero acts on the magnitude and keeps the sign (42_compressor R123). -/
theorem tdiv_scaled_f32Int (y : Word) :
    Int.tdiv (f32Int y * 32767) (2 ^ 149) =
      if f32Sign y then -((f32Units y * 32767 / 2 ^ 149 : Nat) : Int) else ((f32Units y * 32767 / 2 ^ 149 : Nat) : Int) := by
  have htdiv := Int.ofNat_tdiv (f32Units y * 32767) (2 ^ 149)
  rw [Nat.cast_mul, Nat.cast_pow] at htdiv
  rw [htdiv, f32Int]
  split
  · rw [Int.neg_mul, Int.neg_tdiv]
    rfl
  · rfl

/-- Settles O53: the three classes of a binary32, a finite value by its sign and magnitude. -/
theorem q16TruncatesAndSaturates : Obligations.Q16TruncatesAndSaturates := by
  refine fun y => ⟨fun hnan => ?_, fun hinf => ?_, fun hfin => ?_⟩
  · rw [q16, if_pos hnan]
    rfl
  · have hnan : ¬ f32IsNaN y = true := fun h => ((f32IsNaN_iff y).1 h).2 ((f32IsInf_iff y).1 hinf).2
    rw [q16, if_neg hnan, if_pos hinf]
    cases f32Sign y <;> rfl
  · rw [q16_finite_toInt hfin, tdiv_scaled_f32Int]
    generalize f32Units y * 32767 / 2 ^ 149 = t
    split <;> omega

/-! ### The fields of a code (42_compressor R120, R121, R127) -/

/-- The biased magnitude with the constants of 00_scope R7. -/
theorem biasedMagnitude_eq (x : Int) : biasedMagnitude x = min x.natAbs 32635 + 132 := rfl

/-- The exponent is the one whose two powers of two enclose the biased magnitude (42_compressor R121). -/
theorem codeExponent_eq_of_bounds {x : Int} {e : Nat} (hlo : 2 ^ (e + 7) ≤ biasedMagnitude x)
    (hhi : biasedMagnitude x < 2 ^ (e + 8)) : codeExponent x = e := by
  have hpos := (biasedMagnitude_bounds x).1
  rw [codeExponent, (Nat.log2_eq_iff (by omega)).2 ⟨hlo, hhi⟩, Nat.add_sub_cancel]

/-- The mantissa by division (42_compressor R121). -/
theorem codeMantissa_eq_div_mod (x : Int) : codeMantissa x = biasedMagnitude x / 2 ^ (codeExponent x + 3) % 16 := by
  rw [codeMantissa, Nat.shiftRight_eq_div_pow]

/-- Exponent and mantissa from the five leading bits of the biased magnitude (42_compressor R121). -/
theorem code_fields_of_div {x : Int} {e m : Nat} (hm : m < 16) (h : biasedMagnitude x / 2 ^ (e + 3) = 16 + m) :
    codeExponent x = e ∧ codeMantissa x = m := by
  have he : codeExponent x = e := by
    refine codeExponent_eq_of_bounds ?_ ?_
    · rw [show e + 7 = 4 + (e + 3) by omega, pow_add, ← Nat.le_div_iff_mul_le (by positivity)]
      omega
    · rw [show e + 8 = 5 + (e + 3) by omega, pow_add, ← Nat.div_lt_iff_lt_mul (by positivity)]
      omega
  refine ⟨he, ?_⟩
  rw [codeMantissa_eq_div_mod, he, h]
  omega

/-- Bit 7 of a code is the sign of the sample (42_compressor R120). -/
theorem encodeSample_msb (x : Half) : (encodeSample x).msb = decide (x.toInt < 0) := by
  have hcode := encodeSample_toNat x
  obtain ⟨-, -, hexp⟩ := codeExponent_bounds x.toInt
  obtain ⟨-, hman⟩ := codeMantissa_eq x.toInt
  rw [BitVec.msb_eq_decide, decide_eq_decide]
  split at hcode <;> omega

/-- The eight intervals of the magnitude are those between two powers of two of the biased one (42_compressor R127). -/
theorem interval_bounds {e lo hi n : Nat}
    (h : (e, lo, hi) ∈ [(0, 0, 123), (1, 124, 379), (2, 380, 891), (3, 892, 1915), (4, 1916, 3963), (5, 3964, 8059),
      (6, 8060, 16251), (7, 16252, 32768)]) (hlo : lo ≤ n) (hhi : n ≤ hi) :
    2 ^ (e + 7) ≤ min n 32635 + 132 ∧ min n 32635 + 132 < 2 ^ (e + 8) := by
  simp only [List.mem_cons, Prod.mk.injEq, List.not_mem_nil, or_false] at h
  rcases h with ⟨rfl, rfl, rfl⟩ | ⟨rfl, rfl, rfl⟩ | ⟨rfl, rfl, rfl⟩ | ⟨rfl, rfl, rfl⟩ | ⟨rfl, rfl, rfl⟩ |
    ⟨rfl, rfl, rfl⟩ | ⟨rfl, rfl, rfl⟩ | ⟨rfl, rfl, rfl⟩ <;> omega

/-- Settles O54: the sign is bit 7, and an interval of the magnitude fixes the exponent and with it the mantissa. -/
theorem codeExponentFollowsTheIntervals : Obligations.CodeExponentFollowsTheIntervals := by
  refine fun x => ⟨?_, fun e lo hi hrow hlo hhi => ?_⟩
  · rw [← decide_eq_decide, ← encodeSample_msb, BitVec.msb_eq_toInt]
  · obtain ⟨hexp, hman⟩ := encodeSample_fields x
    obtain ⟨hmin, hmax⟩ := interval_bounds hrow hlo hhi
    have he : codeExponent x.toInt = e := codeExponent_eq_of_bounds hmin hmax
    exact ⟨hexp.trans he, by rw [hman, codeMantissa_eq_div_mod, he]; rfl⟩

/-! ### Encoding and decoding (42_compressor R122, R126) -/

/-- The biased magnitude a code stands for: the middle of those with its exponent and mantissa (42_compressor R122). -/
def decodedLevel (x : Int) : Nat := (16 + codeMantissa x) * 2 ^ (codeExponent x + 3) + 2 ^ (codeExponent x + 2)

/-- The level lies between the same two powers of two as the biased magnitude. -/
theorem decodedLevel_bounds (x : Int) :
    2 ^ (codeExponent x + 7) ≤ decodedLevel x ∧ decodedLevel x < 2 ^ (codeExponent x + 8) := by
  obtain ⟨-, hman⟩ := codeMantissa_eq x
  unfold decodedLevel
  simp only [pow_add]
  have hpos : 0 < 2 ^ codeExponent x := by positivity
  constructor <;> nlinarith

/-- No level lies below the bias. -/
theorem bias_le_decodedLevel (x : Int) : 132 ≤ decodedLevel x := by
  have hpos : 0 < 2 ^ codeExponent x := by positivity
  unfold decodedLevel
  simp only [pow_add]
  nlinarith

/-- A level and the biased magnitude differ by at most half the length of their interval (42_compressor R126). -/
theorem decodedLevel_near (x : Int) :
    decodedLevel x ≤ biasedMagnitude x + 2 ^ (codeExponent x + 2) ∧
      biasedMagnitude x ≤ decodedLevel x + 2 ^ (codeExponent x + 2) := by
  obtain ⟨hdiv, -⟩ := codeMantissa_eq x
  have hsplit := Nat.div_add_mod (biasedMagnitude x) (2 ^ (codeExponent x + 3))
  have hrem := Nat.mod_lt (biasedMagnitude x) (show 0 < 2 ^ (codeExponent x + 3) by positivity)
  rw [hdiv, mul_comm] at hsplit
  have hhalf : 2 ^ (codeExponent x + 3) = 2 * 2 ^ (codeExponent x + 2) := pow_succ' 2 _
  unfold decodedLevel
  omega

/-- A larger biased magnitude has no smaller exponent. -/
theorem codeExponent_le {x y : Int} (h : biasedMagnitude x ≤ biasedMagnitude y) : codeExponent x ≤ codeExponent y := by
  have hlt : 2 ^ (codeExponent x + 7) < 2 ^ (codeExponent y + 8) :=
    (codeExponent_bounds x).1.trans_lt (h.trans_lt (codeExponent_bounds y).2.1)
  have := (Nat.pow_lt_pow_iff_right (by decide)).1 hlt
  omega

/-- A larger biased magnitude has no smaller level (42_compressor R126). -/
theorem decodedLevel_le {x y : Int} (h : biasedMagnitude x ≤ biasedMagnitude y) : decodedLevel x ≤ decodedLevel y := by
  rcases (codeExponent_le h).eq_or_lt with heq | hlt
  · have hdiv := Nat.div_le_div_right (c := 2 ^ (codeExponent x + 3)) h
    have hy := (codeMantissa_eq y).1
    rw [← heq] at hy
    rw [(codeMantissa_eq x).1, hy] at hdiv
    unfold decodedLevel
    rw [← heq]
    exact Nat.add_le_add_right (Nat.mul_le_mul_right _ hdiv) _
  · calc decodedLevel x ≤ 2 ^ (codeExponent x + 8) := (decodedLevel_bounds x).2.le
      _ ≤ 2 ^ (codeExponent y + 7) := Nat.pow_le_pow_right (by decide) (by omega)
      _ ≤ decodedLevel y := (decodedLevel_bounds y).1

/-- Decoding a code gives its level without the bias, under the sample's sign (42_compressor R122). -/
theorem decodeCode_encodeSample (x : Half) :
    decodeCode (encodeSample x) = if x.toInt < 0 then 132 - (decodedLevel x.toInt : Int) else decodedLevel x.toInt - 132 := by
  obtain ⟨hexp, hman⟩ := encodeSample_fields x
  have hlevel : (codeMantissa x.toInt * 2 ^ 3 + 132) * 2 ^ codeExponent x.toInt = decodedLevel x.toInt := by
    unfold decodedLevel
    ring
  have hbias := bias_le_decodedLevel x.toInt
  have hsign : (encodeSample x).getLsbD 7 = decide (x.toInt < 0) := by
    rw [← encodeSample_msb, BitVec.msb_eq_getLsbD_last]
  unfold decodeCode Config.cmpBias
  simp only [hexp, hman, hsign, Nat.shiftLeft_eq, hlevel, decide_eq_true_eq]
  split <;> omega

/-- The codes of a sample and of its negative have the same exponent and mantissa (42_compressor R126). -/
theorem code_fields_neg (x : Int) : codeExponent (-x) = codeExponent x ∧ codeMantissa (-x) = codeMantissa x := by
  simp only [codeExponent, codeMantissa, biasedMagnitude_eq, Int.natAbs_neg, and_self]

/-- Exclusive-or with 0x80 turns bit 7 of a code (42_compressor R120). -/
theorem not_sign_eq_xor (b : Bool) (e : BitVec 3) (m : BitVec 4) :
    BitVec.ofBool (!b) ++ e ++ m = (BitVec.ofBool b ++ e ++ m) ^^^ 0x80#8 := by
  have hsign : BitVec.ofBool (!b) = BitVec.ofBool b ^^^ 1#1 := by cases b <;> rfl
  show _ = (BitVec.ofBool b ++ e ++ m) ^^^ (1#1 ++ 0#3 ++ 0#4)
  rw [BitVec.xor_append, BitVec.xor_append, BitVec.xor_zero, BitVec.xor_zero, hsign]

/-- The codes of a sample and of its negative differ in bit 7 only; 0 and -32768 are their own negatives (42_compressor R126). -/
theorem encodeSample_neg {x : Half} (hzero : x.toInt ≠ 0) (hmin : x.toInt ≠ -32768) :
    encodeSample (-x) = encodeSample x ^^^ 0x80#8 := by
  obtain ⟨hexp, hman⟩ := code_fields_neg x.toInt
  have hneg : (-x).toInt = -x.toInt := BitVec.toInt_neg_of_ne_intMin (by rintro rfl; exact hmin rfl)
  have hsign : decide (-x.toInt < 0) = !decide (x.toInt < 0) := by
    rw [← decide_not, decide_eq_decide]
    omega
  unfold encodeSample
  rw [hneg, hexp, hman, hsign]
  exact not_sign_eq_xor _ _ _

/-- Up to the clip, a decoded sample is off by at most half a step of its interval (42_compressor R126). -/
theorem decodeCode_encodeSample_near {x : Half} (h : x.toInt.natAbs ≤ 32635) :
    (decodeCode (encodeSample x) - x.toInt).natAbs ≤ 2 ^ (codeExponent x.toInt + 2) := by
  have hmag : biasedMagnitude x.toInt = x.toInt.natAbs + 132 := by rw [biasedMagnitude_eq, min_eq_left h]
  obtain ⟨hup, hdown⟩ := decodedLevel_near x.toInt
  rw [decodeCode_encodeSample]
  generalize 2 ^ (codeExponent x.toInt + 2) = step at hup hdown
  split <;> omega

/-- Above the clip every sample has the highest level (42_compressor R121, R126). -/
theorem decodedLevel_of_clipped {x : Int} (h : 32635 < x.natAbs) : decodedLevel x = 32256 := by
  have hmag : biasedMagnitude x = 32767 := by rw [biasedMagnitude_eq, min_eq_right h.le]
  obtain ⟨he, hm⟩ := code_fields_of_div (x := x) (e := 7) (m := 15) (by decide) (by rw [hmag]; rfl)
  rw [decodedLevel, he, hm]
  rfl

/-- Decoding after encoding keeps the order: two samples of one sign by their magnitudes, the others by 0 (42_compressor R126). -/
theorem decodeCode_encodeSample_le {x y : Half} (h : x.toInt ≤ y.toInt) :
    decodeCode (encodeSample x) ≤ decodeCode (encodeSample y) := by
  have hx := bias_le_decodedLevel x.toInt
  have hy := bias_le_decodedLevel y.toInt
  rw [decodeCode_encodeSample, decodeCode_encodeSample]
  split <;> split
  · have : decodedLevel y.toInt ≤ decodedLevel x.toInt := decodedLevel_le (by simp only [biasedMagnitude_eq]; omega)
    omega
  · omega
  · omega
  · have : decodedLevel x.toInt ≤ decodedLevel y.toInt := decodedLevel_le (by simp only [biasedMagnitude_eq]; omega)
    omega

/-- The largest magnitude whose code has exponent `e` and mantissa `m`. It is never 0, so that either sign can be put to it. -/
def largestMagnitude (e m : Nat) : Nat := (17 + m) * 2 ^ (e + 3) - 133

/-- The largest magnitude of a code is positive and below the clip. -/
theorem largestMagnitude_bounds {e m : Nat} (he : e < 8) (hm : m < 16) :
    0 < largestMagnitude e m ∧ largestMagnitude e m ≤ 32635 := by
  unfold largestMagnitude
  interval_cases e <;> omega

/-- The largest magnitude of a code has its exponent and mantissa (42_compressor R121). -/
theorem code_fields_of_largestMagnitude {e m : Nat} (he : e < 8) (hm : m < 16) {x : Int}
    (hx : x.natAbs = largestMagnitude e m) : codeExponent x = e ∧ codeMantissa x = m := by
  obtain ⟨hpos, hclip⟩ := largestMagnitude_bounds he hm
  refine code_fields_of_div hm ?_
  rw [biasedMagnitude_eq, hx, min_eq_left hclip]
  unfold largestMagnitude at hpos ⊢
  interval_cases e <;> omega

/-- Every positive magnitude below 2^15 has a sample of either sign. -/
theorem exists_sample_of_magnitude {n : Nat} (hpos : 0 < n) (hmax : n ≤ 32767) (negative : Prop) :
    ∃ x : Half, x.toInt.natAbs = n ∧ (x.toInt < 0 ↔ negative) := by
  by_cases hneg : negative
  · have h : (BitVec.ofInt 16 (-(n : Int))).toInt = -n :=
      BitVec.toInt_ofInt_eq_self (by decide) (by dsimp; omega) (by dsimp; omega)
    exact ⟨_, by rw [h, Int.natAbs_neg, Int.natAbs_natCast], iff_of_true (by omega) hneg⟩
  · have h : (BitVec.ofInt 16 (n : Int)).toInt = n :=
      BitVec.toInt_ofInt_eq_self (by decide) (by dsimp; omega) (by dsimp; omega)
    exact ⟨_, by rw [h, Int.natAbs_natCast], iff_of_false (by omega) hneg⟩

/-- Every code is the code of a sample: of the largest magnitude with its fields, under its sign (42_compressor R126). -/
theorem encodeSample_surjective (c : Byte) : ∃ x, encodeSample x = c := by
  have hc := c.isLt
  have he : c.toNat / 16 % 8 < 8 := Nat.mod_lt _ (by decide)
  have hm : c.toNat % 16 < 16 := Nat.mod_lt _ (by decide)
  obtain ⟨hpos, hclip⟩ := largestMagnitude_bounds he hm
  obtain ⟨x, hmag, hsign⟩ := exists_sample_of_magnitude hpos (by omega) (128 ≤ c.toNat)
  obtain ⟨hexp, hman⟩ := code_fields_of_largestMagnitude he hm hmag
  refine ⟨x, BitVec.eq_of_toNat_eq ?_⟩
  rw [encodeSample_toNat, hexp, hman]
  split <;> omega

/-- Settles O55: sign, error below and above the clip, order and reach, each by its lemma. -/
theorem compressorRoundTripProperties : Obligations.CompressorRoundTripProperties := by
  refine ⟨fun _ => encodeSample_neg, by decide, fun x hx => ?_, fun x hx => ?_, fun _ _ => decodeCode_encodeSample_le,
    encodeSample_surjective⟩
  · rw [(encodeSample_fields x).1]
    exact decodeCode_encodeSample_near hx
  · rw [decodeCode_encodeSample, decodedLevel_of_clipped hx]
    split <;> omega

/-! ### The two commands (42_compressor R124, R125) -/

/-- Settles O27: a compressor command completes in every state unless a reserved bit is set. -/
theorem compressorCommandsWriteTheCode : Obligations.CompressorCommandsWriteTheCode := by
  refine fun s => ⟨fun rsv x => ?_, fun rsv => ?_⟩
  · rw [BitVec.ofNat_toNat]
    split
    case isTrue hrsv => exact exec_complete (i := .cmpEncode rsv x) (beq_iff_eq.2 hrsv) trivial trivial trivial
    case isFalse hrsv => exact exec_reserved (beq_eq_false_iff_ne.2 hrsv)
  · rw [BitVec.ofNat_toNat]
    split
    case isTrue hrsv => exact exec_complete (i := .cmpEncodeF rsv) (beq_iff_eq.2 hrsv) trivial trivial trivial
    case isFalse hrsv => exact exec_reserved (beq_eq_false_iff_ne.2 hrsv)

end Sys2Proof.Machine

/-! ## The transmit ring (43_ring R130 to R141) -/

namespace Sys2Proof.Machine

open Sys2Proof Sys2Proof.Statements

/-! ### The advance (43_ring R131, R134, R135) -/

/-- The advance lands on DRAIN (43_ring R134). -/
theorem overflowEvent_eq_decide {s : State} (hp : s.params.Wf) :
    overflowEvent s = decide ((s.fill.toNat + 1) % s.params.ringN = s.drain.toNat) := by
  obtain ⟨-, -, ⟨hlo, hhi⟩, -⟩ := hp
  rw [overflowEvent, beq_eq_decide, ← nextSlot_toNat hhi (by omega), decide_eq_decide, BitVec.toNat_inj]

/-- A ring of two slots or more has no overflow while none is pending (43_ring R135). -/
theorem overflowEvent_eq_false {s : State} (hp : s.params.Wf) (hfill : s.fill.toNat < s.params.ringN)
    (h : s.fill = s.drain) : overflowEvent s = false := by
  obtain ⟨-, -, ⟨hlo, -⟩, -⟩ := id hp
  rw [overflowEvent_eq_decide hp, ← h, decide_eq_false_iff_not]
  rcases Nat.lt_or_eq_of_le (show s.fill.toNat + 1 ≤ s.params.ringN from hfill) with hnext | hwrap
  · rw [Nat.mod_eq_of_lt hnext]
    omega
  · rw [hwrap, Nat.mod_self]
    omega

/-- With the latch as the invariants have it, every overflow event is counted (43_ring R135). -/
theorem advanceCore_ovfCount {s : State} (hp : s.params.Wf) (hfill : s.fill.toNat < s.params.ringN)
    (hlatch : s.ovfLatch = true → s.fill = s.drain) :
    (advanceCore s).ovfCount = if overflowEvent s then saturatingSucc s.ovfCount else s.ovfCount := by
  cases hl : s.ovfLatch
  case false => simp [advanceCore, hl]
  case true => simp [advanceCore, overflowEvent_eq_false hp hfill (hlatch hl)]

/-- One more overflow, as a number (43_ring R134). -/
theorem saturatingSucc_toNat (c : Word) : (saturatingSucc c).toNat = min (c.toNat + 1) 4294967295 := by
  rw [saturatingSucc, BitVec.toNat_ofNat]
  omega

/-- The pending slots reach from DRAIN to FILL, once round the ring at most (43_ring R131). -/
theorem pendingSlots_add_drain {s : State} (hfill : s.fill.toNat < s.params.ringN)
    (hdrain : s.drain.toNat < s.params.ringN) :
    s.pendingSlots < s.params.ringN ∧
      (s.pendingSlots + s.drain.toNat = s.fill.toNat ∨
        s.pendingSlots + s.drain.toNat = s.fill.toNat + s.params.ringN) := by
  unfold State.pendingSlots
  rcases Nat.lt_or_ge s.fill.toNat s.drain.toNat with h | h
  · rw [Nat.mod_eq_of_lt (by omega)]
    omega
  · rw [Nat.sub_add_comm h, Nat.add_mod_right, Nat.mod_eq_of_lt (by omega)]
    omega

/-- Settles O60: FILL and DRAIN are slots, and an advance from DRAIN does not land on it. -/
theorem latchNeverSuppressesACount : Obligations.LatchNeverSuppressesACount := by
  intro s hs
  obtain ⟨hp, -, -, hfill, hdrain, -, hlatch⟩ := hs
  obtain ⟨hlt, hpending⟩ := pendingSlots_add_drain hfill hdrain
  refine ⟨?_, Nat.le_sub_one_of_lt hlt, fun hl => overflowEvent_eq_false hp hfill (hlatch hl), fun hev hsat => ?_⟩
  · rw [← BitVec.toNat_inj]
    omega
  · rw [advanceCore_ovfCount hp hfill hlatch, if_pos hev, saturatingSucc_toNat]
    exact min_eq_left (Nat.succ_le_of_lt hsat)

/-! ### The three commands (43_ring R136, R137, R138) -/

/-- Settles O28: RING_RESET with no reserved bit always completes. -/
theorem ringResetEmptiesTheRing : Obligations.RingResetEmptiesTheRing := by
  intro s rsv
  split
  case isTrue hrsv => exact exec_complete (i := .ringReset rsv) (beq_iff_eq.2 hrsv) trivial trivial trivial
  case isFalse hrsv => exact exec_reserved (beq_eq_false_iff_ne.2 hrsv)

/-- Settles O30: RING_DRAIN with no reserved bit runs exactly when a slot is pending. -/
theorem ringDrainAdvancesDrain : Obligations.RingDrainAdvancesDrain := by
  intro s rsv
  split
  case isTrue hrsv => exact exec_reserved (beq_eq_false_iff_ne.2 hrsv)
  case isFalse hrsv =>
    have hw : Instr.wellFormed (.ringDrain rsv) = true := beq_iff_eq.2 (not_not.1 hrsv)
    split
    case isTrue hempty => exact exec_badState hw trivial (not_not.2 hempty)
    case isFalse hpending => exact exec_complete hw trivial hpending trivial

/-- An append that fills its slot stores its byte and advances (43_ring R133). -/
theorem appendCore_full {s : State} (h : s.pos.toNat + 1 = s.params.slotSize) (b : Byte) :
    appendCore b s = { advanceCore s with pos := 0, ringMem := (appendCore b s).ringMem } := by
  rw [appendCore_ringMem]
  exact if_pos h

/-- An append that leaves room in its slot stores its byte and goes on (43_ring R133). -/
theorem appendCore_room {s : State} (h : s.pos.toNat + 1 ≠ s.params.slotSize) (b : Byte) :
    appendCore b s = { s with pos := s.pos + 1, ringMem := (appendCore b s).ringMem } := by
  rw [appendCore_ringMem, show s.pos + 1 = BitVec.ofNat 16 (s.pos.toNat + 1) by simp [BitVec.ofNat_add]]
  exact if_neg h

/-- The three elements an advance writes, by arithmetic (43_ring R134). -/
theorem advanceCore_eq {s : State} (hp : s.params.Wf) : advanceCore s =
    { s with
      fill := BitVec.ofNat 8 ((s.fill.toNat + 1) % s.params.ringN)
      ovfLatch := decide ((s.fill.toNat + 1) % s.params.ringN = s.drain.toNat)
      ovfCount := if (s.fill.toNat + 1) % s.params.ringN = s.drain.toNat ∧ s.ovfLatch = false then
        BitVec.ofNat 32 (min (s.ovfCount.toNat + 1) (2 ^ 32 - 1)) else s.ovfCount } := by
  simp [advanceCore, overflowEvent_eq_decide hp, nextSlot, saturatingSucc]

/-- Settles O29: the stored byte by the storage law, the rest by whether the slot is full. -/
theorem ringAppendStoresAndAdvances : Obligations.RingAppendStoresAndAdvances := by
  intro s rsv b
  refine ⟨fun hrsv => exec_reserved (beq_eq_false_iff_ne.2 hrsv), fun hrsv hs => ?_⟩
  have hmem : (appendCore b s).complete.ringMem = s.ringMem.write (slotAddr s.params s.fill.toNat s.pos.toNat) b :=
    appendCore_ringMem b s
  refine ⟨(appendCore b s).complete, exec_complete (i := .ringAppend rsv b) (beq_iff_eq.2 hrsv) trivial trivial trivial,
    ?_, fun a ha => ?_, ?_⟩
  · rw [hmem]
    exact memory_read_write_same _ _ b
  · rw [hmem]
    exact memory_read_write_other _ b ha
  · split
    case isTrue hfull =>
      rw [appendCore_full hfull, advanceCore_eq hs.1]
      rfl
    case isFalse hroom =>
      rw [appendCore_room hroom]
      rfl

/-! ### Sequences of appends without a drain (43_ring R140, R141) -/

/-- `s` is a ring whose FILL has advanced `k` times from slot 0, with DRAIN at 0 (43_ring R140). -/
structure CountsAdvances (k : Nat) (s : State) : Prop where
  wf : s.params.Wf
  fill : s.fill.toNat = k % s.params.ringN
  drain : s.drain = 0
  ovfCount : s.ovfCount.toNat = min (k / s.params.ringN) 4294967295
  ovfLatch : s.ovfLatch = true ↔ 1 ≤ k ∧ k % s.params.ringN = 0

/-- A quotient goes up by one when the remainder comes back to 0. -/
theorem add_one_div_eq_ite (n m : Nat) : (n + 1) / m = n / m + if (n + 1) % m = 0 then 1 else 0 := by
  simp only [Nat.succ_div, Nat.dvd_iff_mod_eq_zero]

/-- Counting under a cap caps the count. -/
theorem min_min_add_one (n cap : Nat) : min (min n cap + 1) cap = min (n + 1) cap := by
  omega

/-- One more advance is counted: it is an overflow event when it completes a lap (43_ring R140). -/
theorem advanceCore_countsAdvances {k : Nat} {s : State} (h : CountsAdvances k s) :
    CountsAdvances (k + 1) (advanceCore s) := by
  obtain ⟨hp, hfill, hdrain, hcount, hlatch⟩ := h
  obtain ⟨-, -, ⟨hlo, hhi⟩, -⟩ := id hp
  have hlt : s.fill.toNat < s.params.ringN := hfill ▸ Nat.mod_lt _ (by omega)
  have hev : overflowEvent s = true ↔ (k + 1) % s.params.ringN = 0 := by
    rw [overflowEvent_eq_decide hp, hfill, Nat.mod_add_mod, hdrain]
    exact decide_eq_true_iff
  refine ⟨hp, ?_, hdrain, ?_, ?_⟩
  · rw [advanceCore_fill, nextSlot_toNat hhi (by omega), hfill, Nat.mod_add_mod, advanceCore_params]
  · have hsame : s.ovfLatch = true → s.fill = s.drain := fun hl => by
      rw [hdrain, ← BitVec.toNat_inj, hfill, (hlatch.1 hl).2]
      rfl
    rw [advanceCore_ovfCount hp hlt hsame, advanceCore_params, add_one_div_eq_ite, apply_ite BitVec.toNat,
      saturatingSucc_toNat, hcount, if_congr hev rfl rfl]
    split
    · exact min_min_add_one _ _
    · rfl
  · rw [advanceCore_ovfLatch, hev, advanceCore_params]
    omega

/-- `s` is a ring of `p` that has taken `n` bytes since RING_RESET, and no drain (43_ring R140). -/
structure CountsBytes (p : Params) (n : Nat) (s : State) : Prop where
  params : s.params = p
  advances : CountsAdvances (n / p.slotSize) s
  pos : s.pos.toNat = n % p.slotSize

/-- RING_RESET begins at no byte (43_ring R136). -/
theorem ringReset_countsBytes {s u : State} (hp : s.params.Wf) (h : exec (.ringReset 0) s = .next u) :
    CountsBytes s.params 0 u := by
  have hexec : exec (.ringReset 0) s = .next (okState (.ringReset 0) s) := exec_complete rfl trivial trivial trivial
  obtain rfl : okState (.ringReset 0) s = u := Host.Outcome.next.inj (hexec.symm.trans h)
  refine ⟨rfl, ?_, (Nat.zero_mod _).symm⟩
  rw [Nat.zero_div]
  exact ⟨hp, (Nat.zero_mod _).symm, rfl, by simp [okState, State.complete], by simp [okState, State.complete]⟩

/-- RING_APPEND is one append (43_ring R137). -/
theorem append_eq (s : State) (b : Byte) : append s b = (appendCore b s).complete := by
  have hexec : exec (.ringAppend 0 b) s = .next (okState (.ringAppend 0 b) s) := exec_complete rfl trivial trivial trivial
  rw [append, after, hexec]
  rfl

/-- Every byte is counted, and every full slot is one advance (43_ring R133). -/
theorem append_countsBytes {p : Params} {n : Nat} {s : State} (h : CountsBytes p n s) (b : Byte) :
    CountsBytes p (n + 1) (append s b) := by
  obtain ⟨rfl, hadvances, hpos⟩ := h
  obtain ⟨-, -, -, ⟨-, hlo, hhi⟩, -⟩ := hadvances.wf
  have hfull : s.pos.toNat + 1 = s.params.slotSize ↔ (n + 1) % s.params.slotSize = 0 := by
    rw [hpos, mod_add_one_eq_iff (by omega)]
  have hdiv := add_one_div_eq_ite n s.params.slotSize
  rw [append_eq]
  by_cases hslot : s.pos.toNat + 1 = s.params.slotSize
  · rw [if_pos (hfull.1 hslot)] at hdiv
    obtain ⟨hp, hfill, hdrain, hcount, hlatch⟩ := advanceCore_countsAdvances hadvances
    rw [appendCore_full hslot]
    refine ⟨rfl, ?_, (hfull.1 hslot).symm⟩
    rw [hdiv]
    exact ⟨hp, hfill, hdrain, hcount, hlatch⟩
  · rw [if_neg (hfull.not.1 hslot)] at hdiv
    obtain ⟨hp, hfill, hdrain, hcount, hlatch⟩ := hadvances
    rw [appendCore_room hslot]
    refine ⟨rfl, ?_, ?_⟩
    · rw [hdiv]
      exact ⟨hp, hfill, hdrain, hcount, hlatch⟩
    · have hlt := Nat.mod_lt n (show 0 < s.params.slotSize by omega)
      show (s.pos + 1).toNat = _
      rw [BitVec.toNat_add, hpos, ← Nat.mod_add_mod n, Nat.mod_eq_of_lt (a := n % _ + 1) (by omega)]
      exact Nat.mod_eq_of_lt (show n % _ + 1 < 2 ^ 16 by omega)

/-- Every byte of a sequence is counted. -/
theorem foldl_append_countsBytes {p : Params} {u : State} (h : CountsBytes p 0 u) (bs : List Byte) :
    CountsBytes p bs.length (bs.foldl append u) := by
  induction bs using List.reverseRecOn with
  | nil => exact h
  | append_singleton bs b ih =>
    rw [List.foldl_concat, List.length_append, List.length_singleton]
    exact append_countsBytes ih b

/-- Settles O58: every byte of the sequence is counted from the RING_RESET on. -/
theorem overflowAccounting : Obligations.OverflowAccounting := by
  intro s u bs hp h
  obtain ⟨hparams, ⟨-, hfill, hdrain, hcount, hlatch⟩, hpos⟩ := foldl_append_countsBytes (ringReset_countsBytes hp h) bs
  rw [hparams] at hfill hcount hlatch
  exact ⟨hfill, hpos, hdrain, hcount, hlatch⟩

/-- The ring storage is the slots laid end to end, so byte `n` has the same place in the slots as in the whole
(20_memory R47). -/
theorem slotAddr_mod (p : Params) (n : Nat) :
    slotAddr p (n / p.slotSize % p.ringN) (n % p.slotSize) = 0x2000 + n % (p.ringN * p.slotSize) := by
  rw [slotAddr, Nat.mul_comm p.ringN, Nat.mod_mul, Nat.mul_comm]
  omega

/-- Byte number `n` goes to storage index `n` modulo the size of the ring (43_ring R133; 20_memory R47). -/
theorem append_ringMem {p : Params} {n : Nat} {s : State} (h : CountsBytes p n s) (b : Byte) :
    (append s b).ringMem = s.ringMem.write (0x2000 + n % (p.ringN * p.slotSize)) b := by
  obtain ⟨rfl, hadvances, hpos⟩ := h
  rw [append_eq, ← slotAddr_mod, ← hadvances.fill, ← hpos]
  exact appendCore_ringMem b s

/-- Two numbers less than `m` apart differ modulo `m`. -/
theorem mod_ne_mod_of_lt_of_lt_add {i n m : Nat} (hlt : i < n) (hnear : n < i + m) : i % m ≠ n % m := by
  intro h
  have hzero := Nat.eq_zero_of_dvd_of_lt ((Nat.modEq_iff_dvd' hlt.le).1 h) (by omega)
  omega

/-- The bytes of the last lap stand in the storage: no later append of the lap has the index of an earlier one
(43_ring R141). -/
theorem foldl_append_ringMem {p : Params} {u : State} (h : CountsBytes p 0 u) (bs : List Byte) {i : Nat} {b : Byte}
    (hb : bs[i]? = some b) (hlast : bs.length ≤ i + p.ringN * p.slotSize) :
    (bs.foldl append u).ringMem.read (0x2000 + i % (p.ringN * p.slotSize)) = some b := by
  induction bs using List.reverseRecOn with
  | nil => cases hb
  | append_singleton bs x ih =>
    rw [List.length_append, List.length_singleton] at hlast
    rw [List.foldl_concat, append_ringMem (foldl_append_countsBytes h bs)]
    rcases Nat.lt_trichotomy i bs.length with hold | rfl | hpast
    · rw [List.getElem?_append_left hold] at hb
      have hne := mod_ne_mod_of_lt_of_lt_add hold hlast
      rw [memory_read_write_other _ x (by omega)]
      exact ih hb (by omega)
    · rw [List.getElem?_concat_length] at hb
      rw [memory_read_write_same, hb]
    · rw [List.getElem?_eq_none (by simpa using hpast)] at hb
      cases hb

/-- Settles O59: the appends from a RING_RESET write the storage end to end, lap after lap. -/
theorem ringHoldsTheLastBytes : Obligations.RingHoldsTheLastBytes :=
  fun _ _ bs _ _ hp h hb hlast => foldl_append_ringMem (ringReset_countsBytes hp h) bs hb hlast

end Sys2Proof.Machine

/-! ## The control unit and the pipeline (44_pipeline_control) -/

namespace Sys2Proof.Machine

open Sys2Proof Sys2Proof.Statements

/-! ### NOP (44_pipeline_control R145) -/

/-- Settles O18: NOP with no reserved bit always completes. -/
theorem nopOnlySetsLastStatus : Obligations.NopOnlySetsLastStatus := by
  intro s rsv
  split
  case isTrue hrsv => exact exec_complete (i := .nop rsv) (beq_iff_eq.2 hrsv) trivial trivial trivial
  case isFalse hrsv => exact exec_reserved (beq_eq_false_iff_ne.2 hrsv)

/-! ### Norm (44_pipeline_control R146) -/

/-- Rounding keeps a value in range whose bits below the rounding position are all 0 (40_filter_downsampler R76). -/
theorem roundPack_exact {exact : Int} {u : Nat} (h : exact ≠ 0) (hover : exact.natAbs < (2 ^ 25 - 1) * 2 ^ 252 * 2 ^ u)
    (hdvd : 2 ^ roundShift exact.natAbs u ∣ exact.natAbs) :
    finite (roundPack (decide (exact < 0)) exact.natAbs u) ∧
      f32Int (roundPack (decide (exact < 0)) exact.natAbs u) * 2 ^ u = exact := by
  obtain ⟨hsign, hexp, hunits, -⟩ :=
    roundPack_fields (decide (exact < 0)) _ u (Int.natAbs_pos.2 h) (Nat.not_le.2 hover)
  obtain ⟨q, hq⟩ := exists_eq_mul_left_of_dvd hdvd
  have hround := roundNearestEven_exact q (roundShift exact.natAbs u)
  rw [← hq] at hround
  rw [hround, ← hq] at hunits
  refine ⟨(f32_finite_iff _).2 hexp, ?_⟩
  rw [f32Int_mul_pow, hsign, hunits]
  simp only [decide_eq_true_eq]
  omega

/-- The unit of Norm has more low zero bits than rounding drops of a numerator below `2^18` (44_pipeline_control R146). -/
theorem normScale_roundShift_dvd {n : Nat} (hpos : 0 < n) (hlt : n < 2 ^ 18) :
    2 ^ roundShift (n * normScale) 0 ∣ n * normScale := by
  have hscale : normScale = 2 ^ 137 := rfl
  refine Dvd.dvd.mul_left ?_ n
  rw [hscale]
  refine Nat.pow_dvd_pow 2 ?_
  obtain ⟨-, -, hzero | hle⟩ := roundShift_bounds (n * 2 ^ 137) 0 (by omega)
  · rw [hzero]
    exact Nat.zero_le _
  · have hpow : 2 ^ roundShift (n * 2 ^ 137) 0 < 2 ^ 132 := by omega
    have := (Nat.pow_lt_pow_iff_right (by decide)).1 hpow
    omega

/-- Norm rounds its numerator in units of `1/H` (44_pipeline_control R146). -/
theorem norm_eq_roundPack {a b : Half} {n : Int} (h : (a.toNat : Int) + b.toNat - 4096 = n) :
    norm a b = roundPack (decide (n < 0)) (n.natAbs * normScale) 0 := by
  rw [← h]
  rfl

/-- Norm of a pair summing to H is +0.0 (44_pipeline_control R146). -/
theorem norm_eq_zero {a b : Half} (h : (a.toNat : Int) + b.toNat - 4096 = 0) : norm a b = 0#32 := by
  rw [norm_eq_roundPack h, Int.natAbs_zero, Nat.zero_mul, roundPack_zero]
  rfl

/-- The value of Norm in units of `2^-149` (44_pipeline_control R146). -/
theorem norm_exact (a b : Half) :
    finite (norm a b) ∧ f32Int (norm a b) = ((a.toNat : Int) + b.toNat - 4096) * 2 ^ 137 := by
  have ha := a.isLt
  have hb := b.isLt
  generalize hn : (a.toNat : Int) + b.toNat - 4096 = n
  rcases eq_or_ne n 0 with rfl | hne
  · rw [norm_eq_zero hn]
    decide
  · have hscale : n.natAbs * normScale = (n * 2 ^ 137).natAbs := by
      rw [Int.natAbs_mul]
      rfl
    have hneg : decide (n < 0) = decide (n * 2 ^ 137 < 0) := decide_eq_decide.2 (by omega)
    have hdvd := normScale_roundShift_dvd (n := n.natAbs) (by omega) (by omega)
    rw [hscale] at hdvd
    rw [norm_eq_roundPack hn, hscale, hneg]
    simpa using roundPack_exact (u := 0) (by omega) (by omega) hdvd

/-- Settles O52: the numerator has at most 18 bits, so Norm is exact, and the bounds are those of the numerator. -/
theorem normIsExact : Obligations.NormIsExact := by
  intro a b
  obtain ⟨hfinite, hvalue⟩ := norm_exact a b
  exact ⟨hfinite, by omega, fun hsum => norm_eq_zero (by omega), fun ha hb => by omega⟩

/-! ### The loop of PIPE_HALF (44_pipeline_control R147) -/

/-- The two cells of a pair's word (20_memory R46). -/
theorem pairWord_cell (cell : Nat) (s : State) {i : Nat} (hi : i < 2) :
    (pairWord cell s).extractLsb' (16 * i) 16 = cellRead s (cell + i) (s.draws + 2 * i) := by
  have haddr : cellAddr (cell + i) = cellAddr cell + 2 * i := by
    unfold cellAddr
    omega
  rw [extract_cell, pairWord, fetchWord_byte _ _ _ (by omega), fetchWord_byte _ _ _ (by omega), cellRead, haddr]
  rfl

/-- A turn of the loop of R147 is one pair's turn, its codes added to the count. -/
theorem halfTurn_eq (base k c : Nat) (s : State) :
    halfTurn base (s, c) k = ((pipePair (base + 2 * k) s).1, c + (pipePair (base + 2 * k) s).2) := by
  have heven : (pairWord (base + 2 * k) s).extractLsb' 0 16 = cellRead s (base + 2 * k) s.draws :=
    pairWord_cell _ s (i := 0) (by decide)
  have hodd : (pairWord (base + 2 * k) s).extractLsb' 16 16 = cellRead s (base + 2 * k + 1) (s.draws + 2) :=
    pairWord_cell _ s (i := 1) (by decide)
  simp only [halfTurn, pipePair, takeReady, heven, hodd]
  split <;> rfl

/-- Turns one after the other from pair `j` on are the loop from that pair's cell. -/
theorem foldl_halfTurn (base n : Nat) : ∀ (j c : Nat) (s : State),
    (List.range' j n).foldl (halfTurn base) (s, c) =
      ((pipePairs n (base + 2 * j) s).1, c + (pipePairs n (base + 2 * j) s).2) := by
  induction n with
  | zero => exact fun _ _ _ => rfl
  | succ n ih =>
    intro j c s
    rw [List.range'_succ, List.foldl_cons, halfTurn_eq, ih, show base + 2 * (j + 1) = base + 2 * j + 2 by omega,
      Nat.add_assoc c]
    rfl

/-- The loop of R147 is the model's. -/
theorem halfLoop_eq (h : Nat) (s : State) : halfLoop h s = pipeHalf h s := by
  rw [halfLoop, List.range_eq_range', foldl_halfTurn, Nat.zero_add]
  rfl

/-- Settles O31: the four ways a command can end, where the effect of PIPE_HALF is the loop of the rule. -/
theorem pipeHalfRunsTheLoop : Obligations.PipeHalfRunsTheLoop := by
  intro s rsv h
  have hw (hrsv : rsv = 0) : Instr.wellFormed (.pipeHalf rsv h) = true := beq_iff_eq.2 hrsv
  refine ⟨fun hrsv hcap hds hv => ?_, fun hrsv => exec_reserved (beq_eq_false_iff_ne.2 hrsv),
    fun hrsv hcfg => exec_badState (hw hrsv) trivial ?_,
    fun hrsv hcap hds hv => exec_hazard (hw hrsv) ⟨hcap, hds⟩ fun hh => Bool.false_ne_true (hv.symm.trans hh)⟩
  · rw [halfLoop_eq]
    exact exec_complete (hw hrsv) trivial ⟨hcap, hds⟩ hv
  · rintro ⟨hcap, hds⟩
    rcases hcfg with hcfg | hcfg
    · exact Bool.false_ne_true (hcfg.symm.trans hcap)
    · exact Bool.false_ne_true (hcfg.symm.trans hds)

/-! ### What PIPE_HALF writes (44_pipeline_control R147) -/

/-- The loop stores only at the addresses of the codes it appends (43_ring R133). -/
theorem pipePairs_ringMem_read {a : Nat} (n : Nat) : ∀ (cell : Nat) (s : State),
    a ∉ appendAddrs s.params (pipePairs n cell s).2 s.fill s.pos →
      (pipePairs n cell s).1.ringMem.read a = s.ringMem.read a := by
  induction n with
  | zero => exact fun _ _ _ => rfl
  | succ n ih =>
    intro cell s ha
    have rest := ih (cell + 2) (pipePair cell s).1
    rw [pipePair_params] at rest
    simp only [pipePairs] at ha ⊢
    rcases pipePair_append cell s a with ⟨hcodes, hmem, hfill, hpos⟩ | ⟨hcodes, hmem, hfill, hpos⟩
    · rw [hcodes, Nat.zero_add] at ha
      rw [hmem, hfill, hpos] at rest
      exact rest ha
    · rw [hcodes, Nat.add_comm, appendAddrs, List.mem_cons, not_or] at ha
      obtain ⟨hne, ha⟩ := ha
      rw [hfill, hpos, hmem hne] at rest
      apply rest
      split at ha
      case isTrue hfull => simpa only [if_pos hfull] using ha
      case isFalse hroom => simpa only [if_neg hroom] using ha

/-- A configured capture unit has at least one pair in a half, and at most 512 (41_capture R100). -/
theorem pairs_bounds {s : State} (hs : s.Inv) (hcap : s.capCfg = true) :
    0 < s.len.toNat / 4 ∧ s.len.toNat / 4 ≤ 512 := by
  obtain ⟨-, ⟨configured, -⟩, -⟩ := hs
  obtain ⟨hlo, hhi, -⟩ := lengthLegal_iff.1 (configured hcap).1
  omega

/-- PIPE_HALF of a valid half with both units configured completes, RESULT the number of codes (44_pipeline_control R147). -/
theorem pipeHalf_completes {s t : State} {h : BitVec 1} (hs : s.Inv) (hcap : s.capCfg = true) (hds : s.dsCfg = true)
    (hv : (if h = 0 then s.halfValid0 else s.halfValid1) = true) (hexec : exec (.pipeHalf 0 h) s = .next t) :
    t = okState (.pipeHalf 0 h) s ∧ t.result.toNat = (pipeHalf h.toNat s).2 := by
  have hok : exec (.pipeHalf 0 h) s = .next (okState (.pipeHalf 0 h) s) := exec_complete rfl trivial ⟨hcap, hds⟩ hv
  obtain rfl := Host.Outcome.next.inj (hok.symm.trans hexec)
  refine ⟨rfl, ?_⟩
  have hcodes : (pipeHalf h.toNat s).2 ≤ s.len.toNat / 4 := pipePairs_le _ _ _
  have hpairs := (pairs_bounds hs hcap).2
  exact Nat.mod_eq_of_lt (show (pipeHalf h.toNat s).2 < 2 ^ 32 by omega)

/-- Settles O32, by what the loop leaves unchanged and where it stores. -/
theorem pipeHalfLeavesTheRestUnchanged : Obligations.PipeHalfLeavesTheRestUnchanged := by
  intro s t h hs hcap hds hv hexec
  obtain ⟨rfl, hresult⟩ := pipeHalf_completes hs hcap hds hv hexec
  obtain ⟨n, hn⟩ := Nat.exists_eq_succ_of_ne_zero (pairs_bounds hs hcap).1.ne'
  refine ⟨?_, rfl, okState_pipeHalf_frame 0 h s, fun a ha => ?_⟩
  · rw [okState, completeWith_ready, pipeHalf, hn]
    exact pipePairs_ready n _ s
  · rw [hresult] at ha
    exact pipePairs_ringMem_read _ _ s ha

/-! ### How many codes PIPE_HALF appends (44_pipeline_control R147) -/

/-- An update leaves READY 1 when it was, or when the update completes a cycle (40_filter_downsampler R80). -/
theorem dsUpdateCore_ready_iff (x : Word) (s : State) :
    (dsUpdateCore x s).ready = true ↔ s.ready = true ∨ s.count.toNat + 1 = s.ratio.toNat := by
  simp [dsUpdateCore]

/-- A turn appends a code when a sample is held, or when its update completes a cycle (40_filter_downsampler R80). -/
theorem pipePair_codes (cell : Nat) (s : State) :
    (pipePair cell s).2 = if s.ready = true ∨ s.count.toNat + 1 = s.ratio.toNat then 1 else 0 := by
  simp only [pipePair, takeReady, dsUpdateCore_ready_iff]
  split <;> rfl

/-- A turn counts one update (40_filter_downsampler R80). -/
theorem pipePair_count {cell : Nat} {s : State} (h : s.count.toNat < s.ratio.toNat) :
    (pipePair cell s).1.count.toNat = (s.count.toNat + 1) % s.ratio.toNat := by
  unfold pipePair takeReady
  split
  · rw [appendCore_count, dsGetCore_count]
    exact dsUpdateCore_count_toNat h
  · exact dsUpdateCore_count_toNat h

/-- The codes of one turn and the cycles of the turns after it make up the cycles of all of them, and one more for a held sample
when the turn itself completes no cycle. -/
theorem codes_add_cycles {c r : Nat} (n : Nat) (held : Prop) [Decidable held] (h : c < r) :
    (if held ∨ c + 1 = r then 1 else 0) + ((c + 1) % r + n) / r = (c + (n + 1)) / r + if held ∧ c < r - 1 then 1 else 0 := by
  rcases Nat.lt_or_eq_of_le (Nat.succ_le_of_lt h) with hgo | hfull
  · rw [Nat.mod_eq_of_lt hgo, Nat.add_comm, show c + 1 + n = c + (n + 1) by omega]
    simp only [show c + 1 ≠ r by omega, show c < r - 1 by omega, or_false, and_true]
  · have hdiv : (c + (n + 1)) / r = n / r + 1 := by
      rw [show c + (n + 1) = n + r by omega, Nat.add_div_right _ (by omega)]
    rw [hdiv, ← hfull, Nat.mod_self, Nat.zero_add, if_pos (.inr rfl), if_neg (by omega)]
    omega

/-- A loop appends one code a cycle, and one more for a sample held before a first turn that completes no cycle: every turn leaves
READY 0, so a later turn appends only the sample of its own cycle. -/
theorem pipePairs_codes (n : Nat) : ∀ (cell : Nat) {s : State}, s.count.toNat < s.ratio.toNat →
    (pipePairs n cell s).2 = (s.count.toNat + n) / s.ratio.toNat +
      if (s.ready = true ∧ 0 < n) ∧ s.count.toNat < s.ratio.toNat - 1 then 1 else 0 := by
  induction n with
  | zero =>
    intro cell s hcount
    rw [Nat.add_zero, Nat.div_eq_of_lt hcount, if_neg (by simp)]
    rfl
  | succ n ih =>
    intro cell s hcount
    have hlt := Nat.mod_lt (s.count.toNat + 1) (Nat.zero_lt_of_lt hcount)
    have rest := ih (cell + 2) (s := (pipePair cell s).1)
    rw [pipePair_count hcount, pipePair_ratio, pipePair_ready, if_neg (by simp)] at rest
    rw [pipePairs, pipePair_codes, rest hlt, Nat.add_zero (_ / _), codes_add_cycles n _ hcount]
    simp only [Nat.succ_pos, and_true]

/-- Settles O33: the codes of the half's pairs, the decimator's count being below its ratio. -/
theorem pipeHalfYield : Obligations.PipeHalfYield := by
  intro s t h hs hcap hds hv hexec
  obtain ⟨-, hresult⟩ := pipeHalf_completes hs hcap hds hv hexec
  obtain ⟨-, -, ⟨configured, -⟩, -⟩ := id hs
  rw [hresult, pipeHalf, pipePairs_codes _ _ (configured hds).2]
  simp only [(pairs_bounds hs hcap).1, and_true]

end Sys2Proof.Machine

/-! ## Statuses (60_exceptions) -/

namespace Sys2Proof.Machine

open Sys2Proof Sys2Proof.Statements

/-- Settles O35: a command that does not complete is raised a status, and `State.raise` changes no other field. -/
theorem failedCommandChangesOnlyLastStatus : Obligations.FailedCommandChangesOnlyLastStatus := by
  intro i s t h hfail
  rcases exec_next h with ⟨rfl, -⟩ | ⟨rfl, -⟩ | ⟨rfl, -⟩
  · rfl
  · rfl
  · exact absurd (okState_lastStatus i s) hfail

/-- The column "BAD_OPERAND when" of 60_exceptions R157 names the commands whose operand values are illegal. -/
theorem badOperandWhen_iff {i : Instr} {s : State} : badOperandWhen i s = true ↔ ¬ OperandsLegal i s := by
  cases i with
  | capConfig r ch =>
    simp only [badOperandWhen, OperandsLegal, channelLegal_iff, lengthLegal_iff, decide_eq_true_iff]
    omega
  | capStart r =>
    simp only [badOperandWhen, OperandsLegal, rateLegal_iff, decide_eq_true_iff]
    omega
  | dsConfig r q => simp only [badOperandWhen, OperandsLegal, ratioLegal_iff_mem, decide_eq_true_iff]
  | _ => simp [badOperandWhen, OperandsLegal]

/-- The column "BAD_STATE when" of 60_exceptions R157 names the commands the block's state is not ready for. -/
theorem badStateWhen_iff {i : Instr} {s : State} : badStateWhen i s = true ↔ ¬ StateReady i s := by
  cases i with
  | capStart r => cases hcfg : s.capCfg <;> simp [badStateWhen, StateReady, hcfg]
  | pipeHalf r h => cases hcfg : s.capCfg <;> simp [badStateWhen, StateReady, hcfg]
  | _ => simp [badStateWhen, StateReady]

/-- A command of a word's two fields that answers a next state ends with the word's status (60_exceptions R158). -/
theorem exec_next_lastStatus {w : Word} {i : Instr} {s t : State}
    (hi : commandOf (w.toNat / 2 ^ 24) (w.toNat % 2 ^ 24) = some i) (h : exec i s = .next t) :
    t.lastStatus = statusOf w s := by
  rw [statusOf, hi]
  rcases exec_next h with ⟨rfl, hw | ho⟩ | ⟨rfl, hw, ho, hr⟩ | ⟨rfl, hw, ho, hr, -⟩
  · simp [hw]
  · simp [badOperandWhen_iff.2 ho]
  · simp [hw, mt badOperandWhen_iff.1 (not_not.2 ho), badStateWhen_iff.2 hr]
  · simp [hw, mt badOperandWhen_iff.1 (not_not.2 ho), mt badStateWhen_iff.1 (not_not.2 hr)]

/-- Settles O37: the word's two fields name no command, or issuing it executes the command they name. -/
theorem statusOfEachCommand : Obligations.StatusOfEachCommand := by
  intro w s t h
  rw [issue, decode_eq_commandOf, opcOf_toNat] at h
  cases hi : commandOf (w.toNat / 2 ^ 24) (w.toNat % 2 ^ 24) with
  | none =>
    rw [hi] at h
    cases h
    rw [statusOf, hi]
    rfl
  | some i =>
    rw [hi] at h
    exact exec_next_lastStatus hi h

end Sys2Proof.Machine
